-- ==== Sys2Proof/Word.lean ====
section
/-! DEFINITION. The two word types of the block: 32-bit registers (10_state.md R23) and 8-bit BUF locations (20_memory.md R60). -/

namespace Sys2Proof

/-- A 32-bit register value, command word or BUF byte address (00_scope.md R8: `REG_W`, `BUF_ADDR_W`). -/
abbrev Word := BitVec 32

/-- An octet: the contents of one BUF location (20_memory.md R60). -/
abbrev Byte := BitVec 8

end Sys2Proof
end

