-- ==== Sys2Proof/Config.lean ====
section
/-! DEFINITION. What is fixed for one block (`BUF_SIZE`, `REG_BASE`) and the one free value the spec leaves open (BUF after power-up). -/

namespace Sys2Proof

/-- The implementation parameters that are OPEN: `BUF_SIZE` (00_scope.md R8) and `REG_BASE` (20_memory.md R60;
93_implementation_defined.md U14). Every value of every field is legal. Log entry 1. -/
structure Config where
  /-- the highest BUF address, `BUF_SIZE - 1` -/
  lastAddr : Word
  /-- `REG_BASE`: where the register window begins in the Host's own address map -/
  regBase : Nat
  deriving DecidableEq, Repr

/-- `BUF_SIZE`, in bytes: 1 <= BUF_SIZE <= 2^32 (00_scope.md R8). -/
def Config.bufSize (c : Config) : Nat := c.lastAddr.toNat + 1

/-- FREE VALUE: the byte that a BUF location holds from power-up until the Host writes it
(93_implementation_defined.md U1: "any value"; 10_state.md R48). It has no body, so a statement about it holds for
every choice. Reset does not change BUF, so it depends on the address alone. Log entry 2. -/
opaque Config.powerUpByte : Nat → Byte

end Sys2Proof
end

