-- ==== Sys2Proof/Syntax.lean ====
section
/-! DEFINITION. The commands, one constructor per row of spec/opcode_table.json, and the field layout of a command word. -/

namespace Sys2Proof

/-- The eleven legal commands (30_encoding.md R83). No command has an operand field: operands are fixed registers
(R80, R89), and the width of BE_OCTETS is part of its mnemonic. -/
inductive Instr where
  | beOctets8
  | beOctets16
  | beOctets32
  | beOctets64
  | sum
  | finalize
  | checksum
  | ipv4Checksum
  | ipv6Checksum
  | macFormat
  | macParse
  deriving DecidableEq, Repr

/-- The three fields of a command word, legal or not (30_encoding.md R80). -/
structure CmdFields where
  /-- bits [31:10], reserved -/
  rsv : BitVec 22
  /-- bits [9:8], the width selector -/
  w : BitVec 2
  /-- bits [7:0], the opcode -/
  op : BitVec 8
  deriving DecidableEq, Repr

end Sys2Proof
end

