-- ==== Sys2Proof/Machine/HostSyntax.lean ====
section
/-! DEFINITION. What the Host can do: register names, single accesses, program statements, pseudo-instructions, and the turns of the schedule. -/

namespace Sys2Proof.Machine

/-- The registers of the map of 10_state.md R23, in the order of their offsets. -/
inductive RegName where
  | cmd | status | acc | result
  | dataBase | dataLen | skip | extraBase | extraLen | proto
  | src0 | src1 | src2 | src3
  | dst0 | dst1 | dst2 | dst3
  | macHi | macLo | textBase | textLen
  | octInHi | octInLo | octOutHi | octOutLo
  | fmt0 | fmt1 | fmt2 | fmt3 | fmt4
  deriving DecidableEq, Repr

/-- The access key of 10_state.md R23. -/
inductive AccessKey where
  | rw | ro | wo
  deriving DecidableEq, Repr

/-- One Host access (00_scope.md R6; 20_memory.md R60). `width` is the size of a register access in bytes: only
aligned 4-byte accesses are defined (10_state.md R43). `dst` is the name under which the Host keeps what it read
(30_encoding.md R92); names are numbers (log entry 5). The read of a BUF byte is a step too (log entry 7). -/
inductive HostAccess where
  | regRead (off : BitVec 8) (width : Nat) (dst : Nat)
  | regWrite (off : BitVec 8) (width : Nat) (v : Word)
  | bufRead (addr : Word) (dst : Nat)
  | bufWrite (addr : Word) (v : Byte)
  deriving DecidableEq, Repr

/-- The statements of a Host program (30_encoding.md R92). Names and labels are numbers (log entry 5). -/
inductive HostStmt where
  | wr (r : RegName) (v : Word)
  | rd (r : RegName) (s : Nat)
  | sb (addr : Word) (v : Byte)
  | cmd (i : Instr)
  | label (l : Nat)
  | bbusy (s l : Nat)
  | berr (s l : Nat)
  | halt
  deriving DecidableEq, Repr

/-- A line of Host source: a statement of 30_encoding.md R92 or a pseudo-instruction of R93. -/
inductive HostLine where
  | stmt (st : HostStmt)
  | poll (s : Nat)
  | run (i : Instr) (s : Nat)
  | clracc
  | setmac (m0 m1 m2 m3 m4 m5 : Byte)
  | setbufData (base len skip : Word)
  | setbufExtra (base len : Word)
  | settext (base len : Word)
  deriving DecidableEq, Repr

/-- One entry of the schedule: whose step comes next (00_scope.md R6; 60_exceptions.md R207). `host` is the next
statement of the Host's program, `access` a Host access outside any program, `reset` the Host's assertion of reset,
`engine` the Engine's completion. -/
inductive Turn where
  | engine
  | host
  | access (a : HostAccess)
  | reset
  deriving DecidableEq, Repr

end Sys2Proof.Machine
end

