-- ==== Sys2Proof/WellFormed.lean ====
section
/-! DEFINITION. The well-formedness checks: of a command, of a command word's fields, of a Host access and of a Host program. -/

namespace Sys2Proof

/-- Every command is well formed: no command has a register number, an immediate or a mode field
(30_encoding.md R80), so there is nothing an `Instr` could get wrong. -/
def Instr.wellFormed : Instr → Bool := fun _ => true

/-- The fields of a legal word (30_encoding.md R84, read positively): RSV is 0, OP is one of 0x01-0x08, and W is 0
unless OP is BE_OCTETS. -/
def CmdFields.wellFormed (f : CmdFields) : Bool :=
  f.rsv == 0 && decide (1 ≤ f.op.toNat ∧ f.op.toNat ≤ 8) && (f.w == 0 || f.op == 1)

namespace Machine

/-- A register access the block defines is an aligned 32-bit access (10_state.md R43); a BUF access has no
alignment rule (20_memory.md R68). -/
def HostAccess.wellFormed : HostAccess → Bool
  | .regRead off width _ => width == 4 && off.toNat % 4 == 0
  | .regWrite off width _ => width == 4 && off.toNat % 4 == 0
  | .bufRead _ _ => true
  | .bufWrite _ _ => true

/-- The labels a program places, in order. -/
def labelsOf (p : List HostStmt) : List Nat :=
  p.filterMap fun
    | .label l => some l
    | _ => none

/-- The names a program reads values into. -/
def namesReadBy (p : List HostStmt) : List Nat :=
  p.filterMap fun
    | .rd _ s => some s
    | _ => none

/-- A branch names a label the program places and a value the program reads; other statements have no such need. -/
def HostStmt.resolvedIn (p : List HostStmt) : HostStmt → Bool
  | .bbusy s l => (labelsOf p).contains l && (namesReadBy p).contains s
  | .berr s l => (labelsOf p).contains l && (namesReadBy p).contains s
  | _ => true

/-- A Host program (30_encoding.md R92, R95): no label is placed twice, every branch is resolved, and a `halt`
ends the list. -/
def programWellFormed (p : List HostStmt) : Bool :=
  decide (labelsOf p).Nodup && p.all (·.resolvedIn p) && p.getLast? == some .halt

end Machine

end Sys2Proof
end

