-- ==== Sys2Proof/Decode.lean ====
section
/-! DEFINITION. The decoder of command words (30_encoding.md R90), the encoder from the same tables, and the disassembler (R94). -/

namespace Sys2Proof

/-- Why a word is no command (30_encoding.md R84). Each answers ILLEGAL_CMD when written to CMD (R86). -/
inductive Illegal where
  /-- RSV is not 0 -/
  | reservedBits
  /-- W is not 0 although OP is not BE_OCTETS -/
  | widthSelector
  /-- OP is 0x00 or 0x09-0xFF -/
  | opcode
  deriving DecidableEq, Repr

/-- The fields of a word (30_encoding.md R80). -/
def CmdFields.ofWord (v : Word) : CmdFields where
  rsv := v.extractLsb 31 10
  w := v.extractLsb 9 8
  op := v.extractLsb 7 0

/-- The word with the given fields (30_encoding.md R80). -/
def CmdFields.toWord (f : CmdFields) : Word := f.rsv ++ f.w ++ f.op

/-- BE_OCTETS with width selector `w` (30_encoding.md R82: N = 8 << W). -/
def beOctetsOfSelector (w : BitVec 2) : Instr :=
  if w = 0 then .beOctets8 else if w = 1 then .beOctets16 else if w = 2 then .beOctets32 else .beOctets64

/-- The decode function on the three fields, in the order of 30_encoding.md R90. -/
def decodeFields (f : CmdFields) : Except Illegal Instr :=
  if f.rsv ≠ 0 then .error .reservedBits
  else if f.op = 0x01 then .ok (beOctetsOfSelector f.w)
  else if f.w ≠ 0 then .error .widthSelector
  else if f.op = 0x02 then .ok .sum
  else if f.op = 0x03 then .ok .finalize
  else if f.op = 0x04 then .ok .checksum
  else if f.op = 0x05 then .ok .ipv4Checksum
  else if f.op = 0x06 then .ok .ipv6Checksum
  else if f.op = 0x07 then .ok .macFormat
  else if f.op = 0x08 then .ok .macParse
  else .error .opcode

/-- The decode function, total on every 32-bit word (30_encoding.md R90). -/
def decode (v : Word) : Except Illegal Instr := decodeFields (CmdFields.ofWord v)

/-- Whether a word is one of the legal commands (30_encoding.md R83). -/
def isLegal (v : Word) : Bool :=
  match decode v with
  | .ok _ => true
  | .error _ => false

/-- The opcode of a command (30_encoding.md R81). -/
def Instr.opcode : Instr → BitVec 8
  | .beOctets8 | .beOctets16 | .beOctets32 | .beOctets64 => 0x01
  | .sum => 0x02
  | .finalize => 0x03
  | .checksum => 0x04
  | .ipv4Checksum => 0x05
  | .ipv6Checksum => 0x06
  | .macFormat => 0x07
  | .macParse => 0x08

/-- The width selector of a command (30_encoding.md R82): 0 for every command but BE_OCTETS. -/
def Instr.selector : Instr → BitVec 2
  | .beOctets16 => 1
  | .beOctets32 => 2
  | .beOctets64 => 3
  | .beOctets8 | .sum | .finalize | .checksum | .ipv4Checksum | .ipv6Checksum | .macFormat | .macParse => 0

/-- The command word of a command (30_encoding.md R80-R83). -/
def encode (i : Instr) : Word := CmdFields.toWord ⟨0, i.selector, i.opcode⟩

/-- The instruction the decoder reads from a table word: a command is one 32-bit number (30_encoding.md R91), so bit
`k` of the table is bit `k` of the word. A number that needs more than 32 bits is no command word. Log entry 13. -/
def decodeTableWord (nbits w : Nat) : Option Instr :=
  if w % 2 ^ nbits < 2 ^ 32 then
    match decode (BitVec.ofNat 32 (w % 2 ^ nbits)) with
    | .ok i => some i
    | .error _ => none
  else none

/-- The mnemonic a command is printed as (30_encoding.md R83, R94). -/
def Instr.mnemonic : Instr → String
  | .beOctets8 => "BE_OCTETS.8"
  | .beOctets16 => "BE_OCTETS.16"
  | .beOctets32 => "BE_OCTETS.32"
  | .beOctets64 => "BE_OCTETS.64"
  | .sum => "SUM"
  | .finalize => "FINALIZE"
  | .checksum => "CHECKSUM"
  | .ipv4Checksum => "IPV4_CHECKSUM"
  | .ipv6Checksum => "IPV6_CHECKSUM"
  | .macFormat => "MAC_FORMAT"
  | .macParse => "MAC_PARSE"

/-- The hexadecimal digit of a 4-bit number, in upper case (log entry 12). -/
def hexDigitChar (n : Nat) : Char := Char.ofNat (if n ≤ 9 then 0x30 + n else 0x41 + (n - 10))

/-- The eight hexadecimal digits of a word, most significant first. -/
def hexDigits (v : Word) : List Char :=
  [28, 24, 20, 16, 12, 8, 4, 0].map fun k => hexDigitChar ((v.toNat >>> k) % 16)

/-- Disassembly (30_encoding.md R94): the mnemonic, or `.illegal 0xXXXXXXXX` with eight hexadecimal digits. -/
def disassemble (v : Word) : String :=
  match decode v with
  | .ok i => i.mnemonic
  | .error _ => ".illegal 0x" ++ String.ofList (hexDigits v)

end Sys2Proof
end

