-- ==== Sys2Proof/Machine/State.lean ====
section
/-! DEFINITION. The state of the block and of its two agents as plain data, the reasons a step can stop, and the state after power-on. -/

namespace Sys2Proof.Machine

/-- The error codes 1-7 of 60_exceptions.md R200. Code 0 is the absence of an error; codes 8-15 are never produced
and are no value of this type. -/
inductive ErrCode where
  | illegalCmd
  | bufRange
  | skipRange
  | overflow
  | parseTooMany
  | parseTooFew
  | parseInvalid
  deriving DecidableEq, Repr

/-- The stored bits of the registers of 10_state.md R23. CMD has no storage (R24) and STATUS is made of the flags of
`State` (R25). Reserved bits are not stored (R20): RESULT keeps [15:0] (R27), PROTO [7:0] (R31), MAC_LO [31:16] (R33). -/
structure Regs where
  acc : Word
  result : BitVec 16
  dataBase : Word
  dataLen : Word
  skip : Word
  extraBase : Word
  extraLen : Word
  proto : Byte
  src0 : Word
  src1 : Word
  src2 : Word
  src3 : Word
  dst0 : Word
  dst1 : Word
  dst2 : Word
  dst3 : Word
  macHi : Word
  macLo : BitVec 16
  textBase : Word
  textLen : Word
  octInHi : Word
  octInLo : Word
  octOutHi : Word
  octOutLo : Word
  fmt0 : Word
  fmt1 : Word
  fmt2 : Word
  fmt3 : Word
  fmt4 : Word
  deriving DecidableEq, Repr

/-- Every register at its reset value, 0x00000000 (10_state.md R23, R48). -/
def Regs.zero : Regs where
  acc := 0
  result := 0
  dataBase := 0
  dataLen := 0
  skip := 0
  extraBase := 0
  extraLen := 0
  proto := 0
  src0 := 0
  src1 := 0
  src2 := 0
  src3 := 0
  dst0 := 0
  dst1 := 0
  dst2 := 0
  dst3 := 0
  macHi := 0
  macLo := 0
  textBase := 0
  textLen := 0
  octInHi := 0
  octInLo := 0
  octOutHi := 0
  octOutLo := 0
  fmt0 := 0
  fmt1 := 0
  fmt2 := 0
  fmt3 := 0
  fmt4 := 0

/-- The buffer memory BUF (20_memory.md R60): the bytes the Host has written since power-up, by strictly rising
address. A location that is not listed has not been written (log entry 2). -/
abbrev Memory := List Host.Cell

/-- The Host as an agent: its program, its place in it, the values it has read, and whether it has halted
(30_encoding.md R92, R95; 70_reset_and_hazards.md R240). The model's own field (log entry 5). -/
structure HostAgent where
  prog : List HostStmt
  pc : Nat
  names : List (Nat × Word)
  halted : Bool
  deriving DecidableEq, Repr

/-- A Host with nothing to do. -/
def HostAgent.idle : HostAgent where
  prog := []
  pc := 0
  names := []
  halted := false

/-- The state: the tuple `(x, BUF, BUSY, PEND, HAZ)` of 10_state.md R20 with the flags of STATUS (R25) one by one,
the parameters `BUF_SIZE` and `REG_BASE` (00_scope.md R8, 20_memory.md R60, log entry 1), and the model's own two fields: the Host (log entry 5) and
the schedule of the coming steps (log entry 4). -/
structure State where
  /-- the implementation parameters; no step changes them -/
  cfg : Config
  /-- the stored register bits -/
  x : Regs
  /-- the buffer memory -/
  buf : Memory
  /-- STATUS[0], a legal command has been accepted and has not completed -/
  busy : Bool
  /-- STATUS[1], the most recent command has completed -/
  done : Bool
  /-- STATUS[2], a Host write was ignored because BUSY was 1 -/
  wign : Bool
  /-- STATUS[7:4], the error of the most recently completed command -/
  err : Option ErrCode
  /-- the latched command word -/
  pend : Word
  /-- the hazard mark -/
  haz : Bool
  /-- the Host agent -/
  host : HostAgent
  /-- the coming steps, next first; when the list is empty the default of `nextTurn` applies -/
  turns : List Turn
  deriving DecidableEq, Repr

/-- Why the machine stops. -/
inductive Fault where
  /-- Raised by the Engine's completion step while `HAZ` is 1: the read-only guarantee was broken, and no result is
  defined from then on (70_reset_and_hazards.md R236; 93_implementation_defined.md U2). Safe: the model stops where
  the hardware goes on. Log entry 3. -/
  | bufHazard
  /-- Raised by a Host access to a BUF address at or above `BUF_SIZE`, which 20_memory.md R60 says does not exist.
  Safe. Log entry 8. -/
  | bufAddress
  /-- Raised by the Engine's completion step when PEND holds no legal word while BUSY is 1. No run from reset reaches
  it (30_encoding.md R85, R86). Safe. Log entry 11. -/
  | pendIllegal
  deriving DecidableEq, Repr

/-- Why a step has no meaning. -/
inductive Refusal where
  /-- A command that has no meaning yet, by its mnemonic. No command of this model answers it. Safe. -/
  | notModelled (mnemonic : String)
  /-- Raised by a Host register access that is not an aligned 32-bit access: the spec asks a model to refuse it
  (10_state.md R43; 93_implementation_defined.md U3). Safe. -/
  | registerAccess
  /-- Raised by a Host branch to a label its program does not place: no Host program of 30_encoding.md R95. Safe.
  Log entry 6. -/
  | hostLabel
  /-- Raised by a Host branch on a name its program has not read: no Host program of 30_encoding.md R95. Safe.
  Log entry 6. -/
  | hostName
  deriving DecidableEq, Repr

/-- The outcome of one step. -/
abbrev Result := Host.Outcome State Fault Refusal

/-- The state after power-on of a block with parameters `c` (70_reset_and_hazards.md R230; 10_state.md R48): every
register 0, BUSY 0, PEND 0, HAZ 0, BUF not written by the Host. The Host has no program and no step is scheduled. -/
def State.powerOn (c : Config) : State where
  cfg := c
  x := Regs.zero
  buf := []
  busy := false
  done := false
  wign := false
  err := none
  pend := 0
  haz := false
  host := HostAgent.idle
  turns := []

/-- The state right after reset. DESIGN CHOICE: `BUF_SIZE` and `REG_BASE` are OPEN (00_scope.md R8; 20_memory.md R60);
here `BUF_SIZE` is 0x1000, the size the spec's own vectors use (95_test_vectors.md), and `REG_BASE` is 0. Log entry 1. -/
def State.reset : State := State.powerOn { lastAddr := 0xFFF, regBase := 0 }

/-- The end state of a run (70_reset_and_hazards.md R240): the register state (STATUS as its word), BUF and HAZ. -/
structure EndState where
  x : Regs
  status : Word
  buf : Memory
  haz : Bool
  deriving DecidableEq, Repr

end Sys2Proof.Machine
end

