-- ==== Sys2Proof/Machine/Flags.lean ====
section
/-! DEFINITION. The STATUS register: its error codes, its word, and every update of its flags. -/

namespace Sys2Proof.Machine

/-- The number of an error (60_exceptions.md R200). -/
def ErrCode.code : ErrCode → BitVec 4
  | .illegalCmd => 1
  | .bufRange => 2
  | .skipRange => 3
  | .overflow => 4
  | .parseTooMany => 5
  | .parseTooFew => 6
  | .parseInvalid => 7

/-- STATUS.ERR: 0 when there is no error (60_exceptions.md R200). -/
def errField : Option ErrCode → BitVec 4
  | none => 0
  | some e => e.code

/-- The STATUS word (10_state.md R25): ERR [7:4], WIGN [2], DONE [1], BUSY [0]; the reserved bits read 0. -/
def statusWord (s : State) : Word :=
  (0 : BitVec 24) ++ errField s.err ++ (0 : BitVec 1) ++ BitVec.ofBool s.wign ++ BitVec.ofBool s.done
    ++ BitVec.ofBool s.busy

/-- The flags after a command has completed without an error (30_encoding.md R87): ERR 0, BUSY 0, DONE 1. WIGN keeps
its value. -/
def completeOk (s : State) : State :=
  { s with err := none, busy := false, done := true }

/-- Raising an error, the block's only exception (60_exceptions.md R203; 30_encoding.md R86, R87): ERR <- e, DONE <- 1,
BUSY <- 0. It saves nothing and changes nothing else (R201, R208). -/
def raiseError (e : ErrCode) (s : State) : State :=
  { s with err := some e, busy := false, done := true }

/-- Acceptance of a legal word (30_encoding.md R85): it is latched, BUSY is set, and DONE, ERR and WIGN are cleared.
It is also the return from an error: the next accepted command clears ERR (60_exceptions.md R209). -/
def issue (v : Word) (s : State) : State :=
  { s with pend := v, busy := true, done := false, err := none, wign := false }

/-- An illegal word written to CMD while idle (30_encoding.md R86): ILLEGAL_CMD at once, WIGN cleared. -/
def rejectWord (s : State) : State :=
  { raiseError .illegalCmd s with wign := false }

/-- A register write dropped because BUSY is 1 (10_state.md R41). -/
def dropWrite (s : State) : State := { s with wign := true }

end Sys2Proof.Machine
end

