-- ==== Sys2Proof/Machine/Ops.lean ====
section
/-! DEFINITION. The named operations over registers, BUF, commits and reset that every step uses. -/

namespace Sys2Proof.Machine

/-! ### The register map (10_state.md R23) -/

/-- The byte offset of a register (10_state.md R23). -/
def RegName.offset : RegName → BitVec 8
  | .cmd => 0x00
  | .status => 0x04
  | .acc => 0x08
  | .result => 0x0C
  | .dataBase => 0x10
  | .dataLen => 0x14
  | .skip => 0x18
  | .extraBase => 0x1C
  | .extraLen => 0x20
  | .proto => 0x24
  | .src0 => 0x28
  | .src1 => 0x2C
  | .src2 => 0x30
  | .src3 => 0x34
  | .dst0 => 0x38
  | .dst1 => 0x3C
  | .dst2 => 0x40
  | .dst3 => 0x44
  | .macHi => 0x48
  | .macLo => 0x4C
  | .textBase => 0x50
  | .textLen => 0x54
  | .octInHi => 0x58
  | .octInLo => 0x5C
  | .octOutHi => 0x60
  | .octOutLo => 0x64
  | .fmt0 => 0x68
  | .fmt1 => 0x6C
  | .fmt2 => 0x70
  | .fmt3 => 0x74
  | .fmt4 => 0x78

/-- Every register name, in the order of the map. -/
def RegName.all : List RegName :=
  [.cmd, .status, .acc, .result, .dataBase, .dataLen, .skip, .extraBase, .extraLen, .proto]
    ++ [.src0, .src1, .src2, .src3, .dst0, .dst1, .dst2, .dst3, .macHi, .macLo, .textBase, .textLen]
    ++ [.octInHi, .octInLo, .octOutHi, .octOutLo, .fmt0, .fmt1, .fmt2, .fmt3, .fmt4]

/-- The register at an offset; none at an unmapped one (10_state.md R45). -/
def regAt (off : BitVec 8) : Option RegName := RegName.all.find? fun r => r.offset == off

/-- The address of a register in the Host's own address map: `REG_BASE` and its offset (20_memory.md R60). -/
def registerAddress (c : Config) (r : RegName) : Nat := c.regBase + r.offset.toNat

/-- The offset of a Host address in the 256-byte register window; none outside the window (20_memory.md R60). A Host
access names a register by this offset: no rule depends on `REG_BASE`. -/
def windowOffset (c : Config) (addr : Nat) : Option (BitVec 8) :=
  if c.regBase ≤ addr ∧ addr < c.regBase + 256 then some (BitVec.ofNat 8 (addr - c.regBase)) else none

/-- The access key of a register (10_state.md R23). -/
def RegName.access : RegName → AccessKey
  | .cmd => .wo
  | .status | .result | .octOutHi | .octOutLo | .fmt0 | .fmt1 | .fmt2 | .fmt3 | .fmt4 => .ro
  | .acc | .dataBase | .dataLen | .skip | .extraBase | .extraLen | .proto => .rw
  | .src0 | .src1 | .src2 | .src3 | .dst0 | .dst1 | .dst2 | .dst3 => .rw
  | .macHi | .macLo | .textBase | .textLen | .octInHi | .octInLo => .rw

/-- The value of a register with storage; reserved bits read 0 (10_state.md R27, R31, R33, R39). CMD and STATUS have
no storage here and give 0: `readReg` reads STATUS from the flags. -/
def Regs.get (x : Regs) : RegName → Word
  | .cmd => 0
  | .status => 0
  | .acc => x.acc
  | .result => x.result.setWidth 32
  | .dataBase => x.dataBase
  | .dataLen => x.dataLen
  | .skip => x.skip
  | .extraBase => x.extraBase
  | .extraLen => x.extraLen
  | .proto => x.proto.setWidth 32
  | .src0 => x.src0
  | .src1 => x.src1
  | .src2 => x.src2
  | .src3 => x.src3
  | .dst0 => x.dst0
  | .dst1 => x.dst1
  | .dst2 => x.dst2
  | .dst3 => x.dst3
  | .macHi => x.macHi
  | .macLo => x.macLo ++ (0 : BitVec 16)
  | .textBase => x.textBase
  | .textLen => x.textLen
  | .octInHi => x.octInHi
  | .octInLo => x.octInLo
  | .octOutHi => x.octOutHi
  | .octOutLo => x.octOutLo
  | .fmt0 => x.fmt0
  | .fmt1 => x.fmt1
  | .fmt2 => x.fmt2
  | .fmt3 => x.fmt3
  | .fmt4 => x.fmt4

/-- Store the implemented bits of a value in a register (10_state.md R40); reserved bits are dropped. CMD and STATUS
have no storage here. Whether the Host may write a register is `regWriteIdle`'s matter. -/
def Regs.set (x : Regs) (r : RegName) (v : Word) : Regs :=
  match r with
  | .cmd => x
  | .status => x
  | .acc => { x with acc := v }
  | .result => { x with result := v.extractLsb 15 0 }
  | .dataBase => { x with dataBase := v }
  | .dataLen => { x with dataLen := v }
  | .skip => { x with skip := v }
  | .extraBase => { x with extraBase := v }
  | .extraLen => { x with extraLen := v }
  | .proto => { x with proto := v.extractLsb 7 0 }
  | .src0 => { x with src0 := v }
  | .src1 => { x with src1 := v }
  | .src2 => { x with src2 := v }
  | .src3 => { x with src3 := v }
  | .dst0 => { x with dst0 := v }
  | .dst1 => { x with dst1 := v }
  | .dst2 => { x with dst2 := v }
  | .dst3 => { x with dst3 := v }
  | .macHi => { x with macHi := v }
  | .macLo => { x with macLo := v.extractLsb 31 16 }
  | .textBase => { x with textBase := v }
  | .textLen => { x with textLen := v }
  | .octInHi => { x with octInHi := v }
  | .octInLo => { x with octInLo := v }
  | .octOutHi => { x with octOutHi := v }
  | .octOutLo => { x with octOutLo := v }
  | .fmt0 => { x with fmt0 := v }
  | .fmt1 => { x with fmt1 := v }
  | .fmt2 => { x with fmt2 := v }
  | .fmt3 => { x with fmt3 := v }
  | .fmt4 => { x with fmt4 := v }

/-- What a Host read of a register returns (10_state.md R39): its stored bits, STATUS from the flags, 0 for CMD. -/
def readReg (s : State) (r : RegName) : Word :=
  match r with
  | .status => statusWord s
  | r => s.x.get r

/-- What a Host read at an offset returns: 0 where nothing is mapped (10_state.md R45). -/
def readOffset (s : State) (off : BitVec 8) : Word :=
  match regAt off with
  | some r => readReg s r
  | none => 0

/-- Store a value in a register of a state, whatever its access key (a Host store or a command's commit). -/
def putReg (r : RegName) (v : Word) (s : State) : State := { s with x := s.x.set r v }

/-! ### BUF (20_memory.md R60) -/

/-- The canonical form of BUF: the addresses of the written locations rise strictly. -/
abbrev Memory.wf (m : Memory) : Prop := m.Pairwise fun c d => c.1 < d.1

/-- Every listed address exists in a BUF of `size` bytes. -/
abbrev Memory.within (size : Nat) (m : Memory) : Prop := ∀ c ∈ m, c.1 < size

/-- The byte the Host last wrote at an address; none where it has written nothing since power-up. -/
def Memory.read? : Memory → Nat → Option Byte
  | [], _ => none
  | (a, b) :: m, addr => if a = addr then some b else Memory.read? m addr

/-- `MemRead(addr, 1)` (00_scope.md R11): the byte at an address. Where the Host has written nothing since power-up
it is the free value of 93_implementation_defined.md U1 (log entry 2). -/
def Memory.byteAt (m : Memory) (addr : Nat) : Byte := (m.read? addr).getD (Config.powerUpByte addr)

/-- `MemWrite(addr, 1, v)` (00_scope.md R11), keeping the canonical form. -/
def Memory.write : Memory → Nat → Byte → Memory
  | [], addr, v => [(addr, v)]
  | (a, b) :: m, addr, v =>
    if addr < a then (addr, v) :: (a, b) :: m
    else if addr = a then (addr, v) :: m
    else (a, b) :: Memory.write m addr v

/-- `bytes(base, len)` (00_scope.md R12): the bytes of a buffer, by rising address. -/
def bytes (m : Memory) (base len : Word) : List Byte :=
  (List.range len.toNat).map fun i => m.byteAt (base.toNat + i)

/-- A buffer descriptor is in range (20_memory.md R61): it is empty, or it ends at or below `BUF_SIZE`. The sum is
exact, not modulo 2^32. -/
abbrev inRange (c : Config) (base len : Word) : Prop := len = 0 ∨ base.toNat + len.toNat ≤ c.bufSize

/-! ### Commits and completion (10_state.md R42; 30_encoding.md R87) -/

/-- The register writes that a command applies together (00_scope.md R11). -/
abbrev Commit := List (RegName × Word)

/-- Apply the writes of a commit. -/
def Regs.commit (x : Regs) (c : Commit) : Regs := c.foldl (fun x w => x.set w.1 w.2) x

/-- The Engine's completion step once `Exec(PEND)` has given its result (30_encoding.md R87): the commit and ERR 0, or
the error and nothing else. While HAZ is 1 no result is defined and the machine stops (70_reset_and_hazards.md R236,
log entry 3). -/
def complete (r : Except ErrCode Commit) (s : State) : Result :=
  if s.haz then .fault .bufHazard
  else
    match r with
    | .ok c => .next (completeOk { s with x := s.x.commit c })
    | .error e => .next (raiseError e s)

/-! ### Reset (70_reset_and_hazards.md R230) -/

/-- The reset step (70_reset_and_hazards.md R230, R231): every register 0, BUSY 0, PEND 0; HAZ and BUF are unchanged. A
pending command is abandoned. The Host and the schedule are not part of the block (log entry 5). -/
def resetBlock (s : State) : State :=
  { s with
    x := Regs.zero
    busy := false
    done := false
    wign := false
    err := none
    pend := 0 }

end Sys2Proof.Machine
end

