-- ==== Sys2Proof/Machine/Operands.lean ====
section
/-! DEFINITION. How operands are assembled: slices of registers, byte packing, buffers as byte lists, and the read sets. -/

namespace Sys2Proof.Machine

/-- The upper half of a word, `v[31:16]` (00_scope.md R9), as a number (30_encoding.md R89: zero-extended). -/
def hi16 (v : Word) : Nat := (v.extractLsb 31 16).toNat

/-- The lower half of a word, `v[15:0]` (00_scope.md R9), as a number. -/
def lo16 (v : Word) : Nat := (v.extractLsb 15 0).toNat

/-- The four octets of a word, most significant first (10_state.md R38). -/
def octetsOf (v : Word) : List Byte :=
  [v.extractLsb 31 24, v.extractLsb 23 16, v.extractLsb 15 8, v.extractLsb 7 0]

/-- Register `j` of consecutive registers that hold a byte sequence (10_state.md R38): byte `4j` in bits [31:24]. A
position past the end of the sequence holds 0x00. -/
def packAt (l : List Byte) (j : Nat) : Word :=
  l.getD (4 * j) 0 ++ l.getD (4 * j + 1) 0 ++ l.getD (4 * j + 2) 0 ++ l.getD (4 * j + 3) 0

/-- The 64-bit input of BE_OCTETS, `{OCT_IN_HI, OCT_IN_LO}` (10_state.md R35). -/
def octIn (x : Regs) : Nat := x.octInHi.toNat * 2 ^ 32 + x.octInLo.toNat

/-- The six octets of the hardware address (10_state.md R33; 44_hwaddr.md R166). -/
def macOctets (x : Regs) : List Byte := (octetsOf x.macHi ++ octetsOf (x.get .macLo)).take 6

/-- The data buffer (10_state.md R28). -/
def dataBytes (s : State) : List Byte := bytes s.buf s.x.dataBase s.x.dataLen

/-- The extra buffer (10_state.md R30). -/
def extraBytes (s : State) : List Byte := bytes s.buf s.x.extraBase s.x.extraLen

/-- The text of MAC_PARSE (10_state.md R34). -/
def textBytes (s : State) : List Byte := bytes s.buf s.x.textBase s.x.textLen

/-- The data descriptor is in range (20_memory.md R61). -/
abbrev dataInRange (s : State) : Prop := inRange s.cfg s.x.dataBase s.x.dataLen

/-- The extra descriptor is in range (20_memory.md R61). -/
abbrev extraInRange (s : State) : Prop := inRange s.cfg s.x.extraBase s.x.extraLen

/-- The text descriptor is in range (20_memory.md R61). -/
abbrev textInRange (s : State) : Prop := inRange s.cfg s.x.textBase s.x.textLen

/-- The read set of a command as a list of descriptors (20_memory.md R70), from the operand registers. -/
def readSet (i : Instr) (x : Regs) : List (Word × Word) :=
  match i with
  | .sum | .checksum => [(x.dataBase, x.dataLen)]
  | .ipv4Checksum | .ipv6Checksum => [(x.dataBase, x.dataLen), (x.extraBase, x.extraLen)]
  | .macParse => [(x.textBase, x.textLen)]
  | .beOctets8 | .beOctets16 | .beOctets32 | .beOctets64 | .finalize | .macFormat => []

/-- An address lies in a descriptor's interval `[base, base + len)`; the sum is exact (20_memory.md R61, R70). -/
def inDescriptor (addr : Nat) (d : Word × Word) : Bool :=
  decide (d.1.toNat ≤ addr ∧ addr < d.1.toNat + d.2.toNat)

/-- An address lies in the read set of a command (20_memory.md R70; log entry 9). -/
def inReadSet (i : Instr) (x : Regs) (addr : Nat) : Bool := (readSet i x).any (inDescriptor addr)

/-- An address lies in the read set of the command in flight: false while BUSY is 0 (20_memory.md R76). -/
def inPendingReadSet (s : State) (addr : Nat) : Bool :=
  s.busy &&
    match decode s.pend with
    | .ok i => inReadSet i s.x addr
    | .error _ => false

end Sys2Proof.Machine
end

