-- ==== Sys2Proof/Machine/Checksum.lean ====
section
/-! DEFINITION. The checksum accumulator: SUM, FINALIZE, CHECKSUM (42_checksum.md). -/

namespace Sys2Proof.Machine

/-- The word count `W(len)`, the number of whole words (42_checksum.md R110). -/
def wordCount (len : Nat) : Nat := len / 2

/-- Word `i` of a byte list, big-endian (20_memory.md R62). -/
def wordOf (d : List Byte) (i : Nat) : Nat := (d.getD (2 * i) 0).toNat * 256 + (d.getD (2 * i + 1) 0).toNat

/-- The half-word of an odd-length list: its last byte as a high byte; 0 for an even length (20_memory.md R63). -/
def halfOf (d : List Byte) : Nat := if d.length % 2 = 1 then (d.getD (d.length - 1) 0).toNat * 256 else 0

/-- `sum_be_words(d, skip)` (42_checksum.md R111): the exact sum of the words, the word at `skip` taken as zero, and
the half-word. -/
def sumBeWords (d : List Byte) (skip : Nat) : Nat :=
  ((List.range (wordCount d.length)).map fun i => if i = skip then 0 else wordOf d i).sum + halfOf d

/-- One end-around-carry step (00_scope.md R15, "Fold"). -/
def foldStep (x : Nat) : Nat := (x >>> 16) + (x &&& 0xFFFF)

/-- The loop of `fold16` with a bound on its rounds. -/
def foldLoop : Nat → Nat → Nat
  | 0, x => x
  | n + 1, x => if 0x10000 ≤ x then foldLoop n (foldStep x) else x

/-- `fold16(x)` (42_checksum.md R115): fold while `x >= 0x10000`. A fold that the loop takes makes `x` smaller, so `x`
rounds are enough (`fold16_step`, `fold16_of_lt` in Laws). -/
def fold16 (x : Nat) : Nat := foldLoop x x

/-- `finalize(x)` (42_checksum.md R116): the logical NOT of the low 16 bits of the folded value. -/
def finalizeSum (x : Nat) : BitVec 16 := ~~~(BitVec.ofNat 16 (fold16 x))

/-- The largest accumulator value (42_checksum.md R114). -/
def accMax : Nat := 0xFFFFFFFF

/-- A total is kept if it fits the 32-bit accumulator, else OVERFLOW (42_checksum.md R114). -/
def fitAcc (t : Nat) : Except ErrCode Nat := if accMax < t then .error .overflow else .ok t

/-- The checks and the total of the commands that sum the data buffer alone, starting from `seed`: BUF_RANGE, then
SKIP_RANGE, then OVERFLOW (42_checksum.md R112, R120, R124; 60_exceptions.md R202). -/
def dataTotal (seed : Nat) (s : State) : Except ErrCode Nat :=
  if ¬ dataInRange s then .error .bufRange
  else if wordCount s.x.dataLen.toNat < s.x.skip.toNat then .error .skipRange
  else fitAcc (seed + sumBeWords (dataBytes s) s.x.skip.toNat)

/-- The writes of a command that stores its total in ACC and its checksum in RESULT (42_checksum.md R124). -/
def checksumCommit (t : Nat) : Commit := [(.acc, BitVec.ofNat 32 t), (.result, (finalizeSum t).setWidth 32)]

/-- SUM (42_checksum.md R120): ACC <- ACC + the sum of the data words. -/
def execSum (s : State) : Result :=
  complete ((dataTotal s.x.acc.toNat s).map fun t => [(.acc, BitVec.ofNat 32 t)]) s

/-- FINALIZE (42_checksum.md R122): RESULT[15:0] <- finalize(ACC). It raises no error. -/
def execFinalize (s : State) : Result :=
  complete (.ok [(.result, (finalizeSum s.x.acc.toNat).setWidth 32)]) s

/-- CHECKSUM (42_checksum.md R124): the sum of the data words from 0, to ACC; its checksum, to RESULT. -/
def execChecksum (s : State) : Result := complete ((dataTotal 0 s).map checksumCommit) s

end Sys2Proof.Machine
end

