-- ==== Sys2Proof/Machine/HwAddr.lean ====
section
/-! DEFINITION. The hardware-address unit: MAC_FORMAT, MAC_PARSE (44_hwaddr.md). -/

namespace Sys2Proof.Machine

/-- The separator `:` (44_hwaddr.md R163). -/
def colon : Byte := 0x3A

/-! ### Formatting -/

/-- `hexl(v)` (44_hwaddr.md R163): the lowercase digit of a 4-bit value. -/
def hexl (v : BitVec 4) : Byte := if v.toNat ≤ 9 then BitVec.ofNat 8 (0x30 + v.toNat) else BitVec.ofNat 8 (0x61 + (v.toNat - 10))

/-- The two digits of an octet, high digit first (44_hwaddr.md R164). -/
def hexPair (m : Byte) : List Byte := [hexl (m.extractLsb 7 4), hexl (m.extractLsb 3 0)]

/-- Two digits for each octet, a colon between octets (44_hwaddr.md R164). -/
def formatMac : List Byte → List Byte
  | [] => []
  | [m] => hexPair m
  | m :: n :: ms => hexPair m ++ colon :: formatMac (n :: ms)

/-- The commit of MAC_FORMAT (44_hwaddr.md R166): the 17 text bytes and three 0x00 bytes in FMT0-FMT4. -/
def macFormatCommit (x : Regs) : Commit :=
  let t := formatMac (macOctets x)
  [(.fmt0, packAt t 0), (.fmt1, packAt t 1), (.fmt2, packAt t 2), (.fmt3, packAt t 3), (.fmt4, packAt t 4)]

/-- MAC_FORMAT (44_hwaddr.md R166). It raises no error. -/
def execMacFormat (s : State) : Result := complete (.ok (macFormatCommit s.x)) s

/-! ### Parsing -/

/-- The value of a hex digit, of either case; none for every other byte (44_hwaddr.md R167). -/
def hexval (b : Byte) : Option Nat :=
  if 0x30 ≤ b.toNat ∧ b.toNat ≤ 0x39 then some (b.toNat - 0x30)
  else if 0x41 ≤ b.toNat ∧ b.toNat ≤ 0x46 then some (b.toNat - 0x41 + 10)
  else if 0x61 ≤ b.toNat ∧ b.toNat ≤ 0x66 then some (b.toNat - 0x61 + 10)
  else none

/-- The components of a text: it is cut at every colon (44_hwaddr.md R168). The empty text has one empty component. -/
def splitColons : List Byte → List (List Byte)
  | [] => [[]]
  | b :: bs =>
    if b = colon then [] :: splitColons bs
    else
      match splitColons bs with
      | [] => [[b]]
      | c :: cs => (b :: c) :: cs

/-- The value of a valid component, none for an invalid one (44_hwaddr.md R169): one or two hex digits. -/
def componentValue : List Byte → Option Byte
  | [a] => (hexval a).map fun x => BitVec.ofNat 8 x
  | [a, b] =>
    match hexval a, hexval b with
    | some x, some y => some (BitVec.ofNat 8 (16 * x + y))
    | _, _ => none
  | _ => none

/-- The left-to-right scan of `parse` (44_hwaddr.md R170): `parts` are the values of the components before these. The
count is looked at before the validity; too few is reported only when every component was valid. -/
def scanComponents (parts : List Byte) : List (List Byte) → Except ErrCode (List Byte)
  | [] => if parts.length = 6 then .ok parts else .error .parseTooFew
  | c :: cs =>
    if parts.length = 6 then .error .parseTooMany
    else
      match componentValue c with
      | none => .error .parseInvalid
      | some v => scanComponents (parts ++ [v]) cs

/-- `parse(s)` (44_hwaddr.md R170). -/
def parseMac (t : List Byte) : Except ErrCode (List Byte) := scanComponents [] (splitColons t)

/-- The commit of MAC_PARSE for six octets (44_hwaddr.md R172): MAC_HI = m0..m3, MAC_LO = m4, m5, 0, 0. -/
def macParseCommit (m : List Byte) : Commit := [(.macHi, packAt m 0), (.macLo, packAt m 1)]

/-- MAC_PARSE (44_hwaddr.md R172): BUF_RANGE first, then the errors of the scan. All or nothing. -/
def execMacParse (s : State) : Result :=
  complete (if ¬ textInRange s then .error .bufRange else (parseMac (textBytes s)).map macParseCommit) s

end Sys2Proof.Machine
end

