-- ==== Sys2Proof/Machine/Octets.lean ====
section
/-! DEFINITION. Big-endian octet conversion: BE_OCTETS.8, .16, .32, .64 (41_octets.md). -/

namespace Sys2Proof.Machine

/-- `be_octets(N, V)` (41_octets.md R100): the N/8 bytes of V, most significant first. -/
def beOctets (n v : Nat) : List Byte :=
  (List.range (n / 8)).map fun k => BitVec.ofNat 8 ((v >>> (8 * (n / 8 - 1 - k))) &&& 0xFF)

/-- The commit of BE_OCTETS.N (41_octets.md R101): the bytes of the low N input bits, left-justified in OCT_OUT. -/
def beOctetsCommit (n : Nat) (x : Regs) : Commit :=
  let o := beOctets n (octIn x % 2 ^ n)
  [(.octOutHi, packAt o 0), (.octOutLo, packAt o 1)]

/-- BE_OCTETS.8 (41_octets.md R101). It raises no error. -/
def execBeOctets8 (s : State) : Result := complete (.ok (beOctetsCommit 8 s.x)) s

/-- BE_OCTETS.16 (41_octets.md R101). It raises no error. -/
def execBeOctets16 (s : State) : Result := complete (.ok (beOctetsCommit 16 s.x)) s

/-- BE_OCTETS.32 (41_octets.md R101). It raises no error. -/
def execBeOctets32 (s : State) : Result := complete (.ok (beOctetsCommit 32 s.x)) s

/-- BE_OCTETS.64 (41_octets.md R101). It raises no error. -/
def execBeOctets64 (s : State) : Result := complete (.ok (beOctetsCommit 64 s.x)) s

end Sys2Proof.Machine
end

