-- ==== Sys2Proof/Machine/PseudoHeader.lean ====
section
/-! DEFINITION. The pseudo-header prepender: IPV4_CHECKSUM, IPV6_CHECKSUM (43_pseudo_header.md). -/

namespace Sys2Proof.Machine

/-- The two 16-bit words of an address register (43_pseudo_header.md R140, R141). -/
def addrWords (v : Word) : Nat := hi16 v + lo16 v

/-- The protocol identifier, zero-extended (43_pseudo_header.md R144), and the exact combined length (R143). -/
def protoAndLength (x : Regs) : Nat := x.proto.toNat + (x.dataLen.toNat + x.extraLen.toNat)

/-- The IPv4 pseudo-header contribution `P4` (43_pseudo_header.md R140). -/
def pseudoV4 (x : Regs) : Nat := addrWords x.src0 + addrWords x.dst0 + protoAndLength x

/-- The IPv6 pseudo-header contribution `P6` (43_pseudo_header.md R141): sixteen segments. -/
def pseudoV6 (x : Regs) : Nat :=
  ([x.src0, x.dst0, x.src1, x.dst1, x.src2, x.dst2, x.src3, x.dst3].map addrWords).sum + protoAndLength x

/-- The body contribution (43_pseudo_header.md R142): the data words with the word at SKIP taken as zero, and every
word of the extra buffer (its skip is the sentinel). -/
def bodySum (s : State) : Nat :=
  sumBeWords (dataBytes s) s.x.skip.toNat + sumBeWords (extraBytes s) (wordCount s.x.extraLen.toNat)

/-- The checks and the total of a pseudo-header command: BUF_RANGE for data, then for extra, SKIP_RANGE, OVERFLOW
(43_pseudo_header.md R145, R147; 60_exceptions.md R202). -/
def pseudoTotal (p : Nat) (s : State) : Except ErrCode Nat :=
  if ¬ dataInRange s then .error .bufRange
  else if ¬ extraInRange s then .error .bufRange
  else if wordCount s.x.dataLen.toNat < s.x.skip.toNat then .error .skipRange
  else fitAcc (p + bodySum s)

/-- IPV4_CHECKSUM (43_pseudo_header.md R145). -/
def execIpv4Checksum (s : State) : Result := complete ((pseudoTotal (pseudoV4 s.x) s).map checksumCommit) s

/-- IPV6_CHECKSUM (43_pseudo_header.md R147). -/
def execIpv6Checksum (s : State) : Result := complete ((pseudoTotal (pseudoV6 s.x) s).map checksumCommit) s

end Sys2Proof.Machine
end

