-- ==== Sys2Proof/Machine/Dispatch.lean ====
section
/-! DEFINITION. The Engine's completion step by command: `Exec` of 30_encoding.md R87, one arm per command. -/

namespace Sys2Proof.Machine

def exec (i : Instr) (s : State) : Host.Outcome State Fault Refusal :=
  match i with
  | .beOctets8 => Sys2Proof.Machine.execBeOctets8 s
  | .beOctets16 => Sys2Proof.Machine.execBeOctets16 s
  | .beOctets32 => Sys2Proof.Machine.execBeOctets32 s
  | .beOctets64 => Sys2Proof.Machine.execBeOctets64 s
  | .sum => Sys2Proof.Machine.execSum s
  | .finalize => Sys2Proof.Machine.execFinalize s
  | .checksum => Sys2Proof.Machine.execChecksum s
  | .ipv4Checksum => Sys2Proof.Machine.execIpv4Checksum s
  | .ipv6Checksum => Sys2Proof.Machine.execIpv6Checksum s
  | .macFormat => Sys2Proof.Machine.execMacFormat s
  | .macParse => Sys2Proof.Machine.execMacParse s

end Sys2Proof.Machine
end

