-- ==== Sys2Proof/Machine/HostAccess.lean ====
section
/-! DEFINITION. The Host's single accesses: register reads and writes, BUF reads and writes (10_state.md R39-R45; 20_memory.md). -/

namespace Sys2Proof.Machine

/-- Keep a value the Host has read under a name (30_encoding.md R92); an earlier value of the name is replaced. -/
def bindName (n : Nat) (v : Word) (s : State) : State :=
  { s with host := { s.host with names := (n, v) :: s.host.names.filter fun p => p.1 != n } }

/-- The value the Host keeps under a name. -/
def nameValue (s : State) (n : Nat) : Option Word := (s.host.names.find? fun p => p.1 == n).map (·.2)

/-- A write of CMD while BUSY is 0 (30_encoding.md R85, R86). -/
def cmdWrite (v : Word) (s : State) : State := if isLegal v then issue v s else rejectWord s

/-- A Host register write while BUSY is 0 (10_state.md R40). -/
def regWriteIdle (off : BitVec 8) (v : Word) (s : State) : State :=
  match regAt off with
  | none => s
  | some r =>
    match r.access with
    | .wo => cmdWrite v s
    | .rw => putReg r v s
    | .ro => s

/-- A Host register write (10_state.md R40, R41): while BUSY is 1 it is dropped, to any offset. -/
def regWrite (off : BitVec 8) (v : Word) (s : State) : State :=
  if s.busy then dropWrite s else regWriteIdle off v s

/-- The Host's one-byte BUF write (20_memory.md R76; 70_reset_and_hazards.md R236): a write into the read set of the
command in flight sets HAZ, which nothing clears. -/
def bufWrite (addr : Nat) (v : Byte) (s : State) : State :=
  { s with buf := s.buf.write addr v, haz := s.haz || inPendingReadSet s addr }

/-- One Host access. A register access that is not an aligned 32-bit access is refused (10_state.md R43, log entry
10); a BUF access outside BUF faults (20_memory.md R60, log entry 8). Reads change no state of the block (R39). -/
def hostAccess (a : HostAccess) (s : State) : Result :=
  match a with
  | .regRead off width dst =>
    if (HostAccess.regRead off width dst).wellFormed then .next (bindName dst (readOffset s off) s)
    else .refused .registerAccess
  | .regWrite off width v =>
    if (HostAccess.regWrite off width v).wellFormed then .next (regWrite off v s) else .refused .registerAccess
  | .bufRead addr dst =>
    if addr.toNat < s.cfg.bufSize then .next (bindName dst ((s.buf.byteAt addr.toNat).setWidth 32) s)
    else .fault .bufAddress
  | .bufWrite addr v =>
    if addr.toNat < s.cfg.bufSize then .next (bufWrite addr.toNat v s) else .fault .bufAddress

end Sys2Proof.Machine
end

