-- ==== Sys2Proof/Machine/HostProgram.lean ====
section
/-! DEFINITION. Host programs: the pseudo-instructions, the assembler, and the execution of one statement (30_encoding.md R92, R93, R95). -/

namespace Sys2Proof.Machine

/-! ### Pseudo-instructions (30_encoding.md R93) -/

/-- `poll -> s` with the fresh label `l`. -/
def pollStmts (s l : Nat) : List HostStmt := [.label l, .rd .status s, .bbusy s l]

/-- The expansion of a line; `l` is a label that nothing else uses. -/
def HostLine.expand (l : Nat) : HostLine → List HostStmt
  | .stmt st => [st]
  | .poll s => pollStmts s l
  | .run i s => .cmd i :: pollStmts s l
  | .clracc => [.wr .acc 0]
  | .setmac m0 m1 m2 m3 m4 m5 => [.wr .macHi (m0 ++ m1 ++ m2 ++ m3), .wr .macLo (m4 ++ m5 ++ (0 : Byte) ++ (0 : Byte))]
  | .setbufData base len skip => [.wr .dataBase base, .wr .dataLen len, .wr .skip skip]
  | .setbufExtra base len => [.wr .extraBase base, .wr .extraLen len]
  | .settext base len => [.wr .textBase base, .wr .textLen len]

/-- The labels that the statements of the source name. -/
def sourceLabels (p : List HostLine) : List Nat :=
  p.filterMap fun
    | .stmt (.label l) => some l
    | .stmt (.bbusy _ l) => some l
    | .stmt (.berr _ l) => some l
    | _ => none

/-- Expand the lines, giving each line its own fresh label, from `l` upwards. -/
def expandFrom : Nat → List HostLine → List HostStmt
  | _, [] => []
  | l, a :: p => a.expand l ++ expandFrom (l + 1) p

/-- The program of a Host source: its fresh labels lie above every label the source names (log entry 5). -/
def assemble (p : List HostLine) : List HostStmt := expandFrom ((sourceLabels p).foldl max 0 + 1) p

/-! ### One statement (30_encoding.md R92) -/

/-- The Host moves to its next statement. -/
def hostNext (s : State) : State := { s with host := { s.host with pc := s.host.pc + 1 } }

/-- The place of a label in a program. -/
def labelIndex (p : List HostStmt) (l : Nat) : Option Nat := p.findIdx? fun st => st == .label l

/-- The Host moves to a label; a program that does not place it is no program (log entry 6). -/
def hostGoto (l : Nat) (s : State) : Result :=
  match labelIndex s.host.prog l with
  | some k => .next { s with host := { s.host with pc := k } }
  | none => .refused .hostLabel

/-- A Host branch on a condition of a value it has read; a name it has not read is no name (log entry 6). -/
def hostBranch (cond : Word → Bool) (n l : Nat) (s : State) : Result :=
  match nameValue s n with
  | none => .refused .hostName
  | some v => if cond v then hostGoto l s else .next (hostNext s)

/-- The condition of `bbusy`: `s[0] = 1` (30_encoding.md R92). -/
def busyBit (v : Word) : Bool := v.extractLsb 0 0 == 1

/-- The condition of `berr`: `s[7:4] != 0` (30_encoding.md R92). -/
def errBits (v : Word) : Bool := v.extractLsb 7 4 != 0

/-- The effect of one statement. A label takes no access. -/
def hostStmt (st : HostStmt) (s : State) : Result :=
  match st with
  | .wr r v => hostAccess (.regWrite r.offset 4 v) (hostNext s)
  | .rd r n => hostAccess (.regRead r.offset 4 n) (hostNext s)
  | .sb addr v => hostAccess (.bufWrite addr v) (hostNext s)
  | .cmd i => hostAccess (.regWrite RegName.cmd.offset 4 (encode i)) (hostNext s)
  | .label _ => .next (hostNext s)
  | .bbusy n l => hostBranch busyBit n l s
  | .berr n l => hostBranch errBits n l s
  | .halt => .next { s with host := { s.host with halted := true } }

/-- The Host has a statement to execute. -/
def hostReady (s : State) : Bool := !s.host.halted && decide (s.host.pc < s.host.prog.length)

/-- The Host's step: its next statement; nothing when it has halted or has none left (log entry 4). -/
def hostStep (s : State) : Result :=
  if s.host.halted then .next s
  else
    match s.host.prog[s.host.pc]? with
    | some st => hostStmt st s
    | none => .next s

/-- The run of a Host program has ended (70_reset_and_hazards.md R240): the Host has executed `halt`, and BUSY is 0. -/
def runEnded (s : State) : Bool := s.host.halted && !s.busy

/-- The end state of the run of a Host program (70_reset_and_hazards.md R240): none before the run has ended, and none
while HAZ is 1, for a run with HAZ = 1 has no defined end state. HAZ is never cleared (10_state.md R20), so such a run
never gets one. -/
def endState (s : State) : Option EndState :=
  if runEnded s && !s.haz then some { x := s.x, status := statusWord s, buf := s.buf, haz := s.haz } else none

end Sys2Proof.Machine
end

