-- ==== Sys2Proof/Machine/Schedule.lean ====
section
/-! DEFINITION. Whose step comes next, and what each kind of step does (00_scope.md R6; 30_encoding.md R87, R88). -/

namespace Sys2Proof.Machine

/-- The Engine's completion step (30_encoding.md R87): the command in PEND runs. A word that is no command is never
latched (R85, R86); the step stops on one (log entry 11). `exec` is the completion alone (log entry 14). -/
def engineStep (s : State) : Result :=
  match decode s.pend with
  | .ok i => exec i s
  | .error _ => .fault .pendIllegal

/-- Whose step comes next: the schedule's first entry; when the schedule is empty the Engine completes a pending
command, else the Host executes its next statement, else nothing is left to happen (log entry 4). -/
def nextTurn (s : State) : Option Turn :=
  match s.turns with
  | t :: _ => some t
  | [] => if s.busy then some .engine else if hostReady s then some .host else none

/-- The step of a turn. The Engine's step is enabled iff BUSY is 1 (30_encoding.md R87); a turn for it while it is not
enabled passes with no effect (log entry 4). -/
def takeTurn (t : Turn) (s : State) : Result :=
  match t with
  | .engine => if s.busy then engineStep s else .next s
  | .host => hostStep s
  | .access a => hostAccess a s
  | .reset => .next (resetBlock s)

/-- The schedule without its first entry. -/
def dropTurn (s : State) : State := { s with turns := s.turns.tail }

/-- Command word `v` accepted (30_encoding.md R85) with the Engine's step the next to come (log entry 13). -/
def pendingNext (v : Word) (s : State) : State := { issue v s with turns := .engine :: s.turns }

end Sys2Proof.Machine
end

