-- ==== Sys2Proof/Machine/Step.lean ====
section
/-! DEFINITION. One step of the machine, and the placing of a command where the next step runs it. -/

namespace Sys2Proof.Machine

/-- One step (00_scope.md R6): the step of the next turn. When no turn is left the block is idle and keeps its whole
state (60_exceptions.md R216; log entry 4). -/
def step (s : State) : Host.Outcome State Fault Refusal :=
  match nextTurn s with
  | none => .next s
  | some t => takeTurn t (dropTurn s)

/-- The state with a command word accepted and the Engine's completion of it as the very next step. The block fetches
nothing (10_state.md R22): a command comes to run by the Host's CMD write (30_encoding.md R85). Log entry 13. -/
def State.withFetchWord (s : State) (nbits w : Nat) : State :=
  pendingNext (BitVec.ofNat 32 (w % 2 ^ nbits)) s

end Sys2Proof.Machine
end

