-- ==== Sys2Proof/Safety.lean ====
section
/-! DEFINITION. What counts as a safe state, the invariant of the machine, and the vocabulary of the claims. -/

namespace Sys2Proof.Machine

/-- The read-only guarantee has not been broken (20_memory.md R76; 70_reset_and_hazards.md R236). -/
def State.safe (s : State) : Prop := s.haz = false

/-- The invariant of the machine: BUF is in canonical form and lies within `BUF_SIZE`; while BUSY is 1, DONE is 0, ERR
is 0 (10_state.md R25) and PEND holds a legal word (30_encoding.md R85). -/
structure State.Inv (s : State) : Prop where
  buf_wf : s.buf.wf
  buf_within : s.buf.within s.cfg.bufSize
  busy_done : s.busy = true → s.done = false
  busy_err : s.busy = true → s.err = none
  busy_legal : s.busy = true → isLegal s.pend = true

/-- The registers a command writes on success: the last column of 30_encoding.md R89. -/
def writesOf : Instr → List RegName
  | .beOctets8 | .beOctets16 | .beOctets32 | .beOctets64 => [.octOutHi, .octOutLo]
  | .sum => [.acc]
  | .finalize => [.result]
  | .checksum | .ipv4Checksum | .ipv6Checksum => [.acc, .result]
  | .macFormat => [.fmt0, .fmt1, .fmt2, .fmt3, .fmt4]
  | .macParse => [.macHi, .macLo]

/-- The registers a command reads: the middle column of 30_encoding.md R89. -/
def readsOf : Instr → List RegName
  | .beOctets8 | .beOctets16 | .beOctets32 | .beOctets64 => [.octInHi, .octInLo]
  | .sum => [.acc, .dataBase, .dataLen, .skip]
  | .finalize => [.acc]
  | .checksum => [.dataBase, .dataLen, .skip]
  | .ipv4Checksum => [.dataBase, .dataLen, .skip, .extraBase, .extraLen, .proto, .src0, .dst0]
  | .ipv6Checksum =>
    [.dataBase, .dataLen, .skip, .extraBase, .extraLen, .proto]
      ++ [.src0, .src1, .src2, .src3, .dst0, .dst1, .dst2, .dst3]
  | .macFormat => [.macHi, .macLo]
  | .macParse => [.textBase, .textLen]

/-- Registers the Host or a command can store into: all but CMD and STATUS (10_state.md R24, R25). -/
def RegName.hasStorage (r : RegName) : Bool := r != .cmd && r != .status

/-- The implemented bits of a register with storage (10_state.md R20, R27, R31, R33); reserved bits are 0 here. -/
def RegName.implemented : RegName → Word
  | .cmd | .status => 0
  | .result => 0x0000FFFF
  | .proto => 0x000000FF
  | .macLo => 0xFFFF0000
  | .acc | .dataBase | .dataLen | .skip | .extraBase | .extraLen => 0xFFFFFFFF
  | .src0 | .src1 | .src2 | .src3 | .dst0 | .dst1 | .dst2 | .dst3 => 0xFFFFFFFF
  | .macHi | .textBase | .textLen | .octInHi | .octInLo | .octOutHi | .octOutLo => 0xFFFFFFFF
  | .fmt0 | .fmt1 | .fmt2 | .fmt3 | .fmt4 => 0xFFFFFFFF

/-- Bytes `2k`, `2k+1` of a buffer replaced by a 16-bit value in big-endian order (20_memory.md R64). -/
def putWordAt (d : List Byte) (k : Nat) (c : BitVec 16) : List Byte :=
  (d.set (2 * k) (c.extractLsb 15 8)).set (2 * k + 1) (c.extractLsb 7 0)

/-- The 20 text bytes in FMT0-FMT4 (10_state.md R37). -/
def fmtBytes (x : Regs) : List Byte :=
  octetsOf x.fmt0 ++ octetsOf x.fmt1 ++ octetsOf x.fmt2 ++ octetsOf x.fmt3 ++ octetsOf x.fmt4

end Sys2Proof.Machine
end

