-- ==== Sys2Proof/Certificates/Slice0/Obligations.lean ====
section
/-! DEFINITION. The statements for the provers. Each docstring names the rule of spec/ it formalises. -/

open Sys2Proof Sys2Proof.Machine

/-! ### Encoding, issue and steps (30_encoding.md) -/

/-- 30_encoding.md R80-R83: five words written out field by field (RSV, W, OP) decode to the commands they stand for. -/
def Obligations.WrittenOutWordsDecode : Prop :=
  decode 0b0000000000000000000000_11_00000001 = .ok .beOctets64
    ∧ decode 0b0000000000000000000000_00_00000010 = .ok .sum
    ∧ decode 0b0000000000000000000000_00_00000101 = .ok .ipv4Checksum
    ∧ decode 0b0000000000000000000000_00_00000111 = .ok .macFormat
    ∧ decode 0b0000000000000000000000_00_00001000 = .ok .macParse

/-- 30_encoding.md R80-R83, R90: over all 2^32 words, a word decodes to a command iff it is that command's word. So
decoding inverts encoding, and no two words share a command. -/
def Obligations.DecodeInvertsEncodeOnEveryWord : Prop := ∀ (v : Word) (i : Instr), decode v = .ok i ↔ v = encode i

/-- 30_encoding.md R83: exactly eleven words are legal, and which command each is. -/
def Obligations.ExactlyElevenWordsAreLegal : Prop :=
  (∀ v : Word, isLegal v = true ↔ v ∈ [0x001, 0x101, 0x201, 0x301, 0x2, 0x3, 0x4, 0x5, 0x6, 0x7, (0x8 : Word)])
    ∧ decode 0x001 = .ok .beOctets8 ∧ decode 0x101 = .ok .beOctets16 ∧ decode 0x201 = .ok .beOctets32
    ∧ decode 0x301 = .ok .beOctets64 ∧ decode 0x2 = .ok .sum ∧ decode 0x3 = .ok .finalize ∧ decode 0x4 = .ok .checksum
    ∧ decode 0x5 = .ok .ipv4Checksum ∧ decode 0x6 = .ok .ipv6Checksum ∧ decode 0x7 = .ok .macFormat
    ∧ decode 0x8 = .ok .macParse

/-- 30_encoding.md R86: a word that R83 does not list, written to CMD while idle, completes at once with ILLEGAL_CMD and
changes nothing else: BUSY stays 0 and PEND and every register are unchanged. -/
def Obligations.IllegalWordCompletesAtOnce : Prop :=
  ∀ (s : State) (v : Word), s.busy = false
    → v ∉ [0x001, 0x101, 0x201, 0x301, 0x2, 0x3, 0x4, 0x5, 0x6, 0x7, (0x8 : Word)]
    → hostAccess (.regWrite 0x00 4 v) s = .next { s with done := true, err := some .illegalCmd, wign := false }

/-- 30_encoding.md R85: a legal word written to CMD while idle is latched, BUSY is set, DONE, ERR and WIGN are cleared,
and nothing else changes; a CMD write while BUSY is no issue (10_state.md R41). -/
def Obligations.LegalWordIsIssued : Prop :=
  ∀ (s : State) (i : Instr),
    (s.busy = false → hostAccess (.regWrite 0x00 4 (encode i)) s
        = .next { s with pend := encode i, busy := true, done := false, err := none, wign := false })
      ∧ (s.busy = true → hostAccess (.regWrite 0x00 4 (encode i)) s = .next { s with wign := true })

/-- 30_encoding.md R87 (`Exec(PEND)`): when the Engine's step is the next to come and PEND decodes to `i`, the step is
the meaning of `i` on the state with that turn taken from the schedule. An empty schedule is the model's default (log
entry 4). -/
def Obligations.StepRunsDecodedCommand : Prop :=
  ∀ (s : State) (i : Instr), s.busy = true → decode s.pend = .ok i
    → (∀ ts, s.turns = .engine :: ts → step s = exec i { s with turns := ts }) ∧ (s.turns = [] → step s = exec i s)

/-- The model's own way to place a command (log entry 13): the next step runs it, in the state that R85's acceptance of
its word leaves. -/
def Obligations.PlacedCommandRunsNext : Prop :=
  ∀ (s : State) (i : Instr), step (s.withFetchWord 32 (encode i).toNat)
    = exec i { s with pend := encode i, busy := true, done := false, err := none, wign := false }

/-- 30_encoding.md R87, R88: in every state of the invariant with BUSY 1 and no hazard, the Engine's step completes the
command: BUSY 0, DONE 1, WIGN as it was, PEND and BUF untouched. No command blocks. -/
def Obligations.EngineStepCompletesCommand : Prop :=
  ∀ s : State, s.Inv → s.busy = true → s.haz = false → nextTurn s = some .engine
    → ∃ t, step s = .next t ∧ t.busy = false ∧ t.done = true ∧ t.wign = s.wign ∧ t.pend = s.pend ∧ t.buf = s.buf

/-! ### Whole-machine rules -/

/-- 10_state.md R25 (BUSY = 1 => DONE = 0 and ERR = 0), 30_encoding.md R85 (what is latched is a legal word), and the
canonical form of BUF: every step keeps them. -/
def Obligations.StepKeepsInvariant : Prop := ∀ s t : State, s.Inv → step s = .next t → t.Inv

/-- The state after power-on meets the invariant, for every `BUF_SIZE`. -/
def Obligations.PowerOnMeetsInvariant : Prop := ∀ c : Config, (State.powerOn c).Inv ∧ (State.powerOn c).safe

/-- 10_state.md R20: no step clears the hazard mark, a reset included; and no step changes `BUF_SIZE` or `REG_BASE`,
which are parameters (00_scope.md R8; 20_memory.md R60). -/
def Obligations.HazardMarkIsNeverCleared : Prop :=
  ∀ s t : State, step s = .next t → (s.haz = true → t.haz = true) ∧ t.cfg = s.cfg

/-- 20_memory.md R60: the Engine never writes BUF, and neither does anything else but a Host byte write: a location that
a step changes is the one that the Host's access or its `sb` statement names. -/
def Obligations.BufChangesOnlyByHostWrites : Prop :=
  ∀ (s t : State) (a : Nat), step s = .next t → t.buf.byteAt a ≠ s.buf.byteAt a
    → ∃ (w : Word) (v : Byte), w.toNat = a ∧ t.buf.byteAt a = v
        ∧ (nextTurn s = some (.access (.bufWrite w v))
          ∨ (nextTurn s = some .host ∧ s.host.prog[s.host.pc]? = some (.sb w v)))

/-- 10_state.md R25 ("cleared by"), 70_reset_and_hazards.md R231: BUSY falls only at the Engine's step, which sets DONE,
or at reset: reset is the only way to cancel a command. -/
def Obligations.BusyEndsByCompletionOrReset : Prop :=
  ∀ s t : State, step s = .next t → s.busy = true → t.busy = false
    → (nextTurn s = some .engine ∧ t.done = true) ∨ nextTurn s = some .reset

/-- 10_state.md R41, R42, R39: while BUSY is 1 and the step is neither the Engine's nor a reset, no register, no flag
but WIGN and no latched word changes, so no result shows before the completion. -/
def Obligations.RegistersAreFrozenWhileBusy : Prop :=
  ∀ s t : State, step s = .next t → s.busy = true → nextTurn s ≠ some .engine → nextTurn s ≠ some .reset
    → t.x = s.x ∧ t.busy = true ∧ t.done = s.done ∧ t.err = s.err ∧ t.pend = s.pend
      ∧ (s.wign = true → t.wign = true)

/-- 20_memory.md R73, R75, R76; 30_encoding.md R88: whatever defined Host accesses come between the issue and the
completion, BUF writes outside the read set among them, the command commits the registers and the error it would have
committed at once, and no hazard arises. The read set is the table of R70 as it stands (log entry 9). -/
def Obligations.InterleavedAccessesKeepTheResult : Prop :=
  ∀ (s : State) (i : Instr) (l : List HostAccess), s.busy = true → decode s.pend = .ok i → s.haz = false
    → (∀ a ∈ l, a.wellFormed = true)
    → (∀ w n, HostAccess.bufRead w n ∈ l → w.toNat < s.cfg.bufSize)
    → (∀ w v, HostAccess.bufWrite w v ∈ l → w.toNat < s.cfg.bufSize ∧ inReadSet i s.x w.toNat = false)
    → ∃ t u, core.run (l.length + 1) { s with turns := l.map .access ++ [.engine] } = .next t
        ∧ exec i s = .next u ∧ t.x = u.x ∧ t.err = u.err ∧ t.haz = false ∧ t.busy = false ∧ t.done = true

/-- 20_memory.md R71; 30_encoding.md R89: the error and the results of a command depend only on its operand registers
and on the bytes of its read set. -/
def Obligations.CommandReadsOnlyItsOperands : Prop :=
  ∀ (i : Instr) (s s' t t' : State), s.cfg.bufSize = s'.cfg.bufSize → (∀ r ∈ readsOf i, s.x.get r = s'.x.get r)
    → (∀ a, inReadSet i s.x a = true → s.buf.byteAt a = s'.buf.byteAt a)
    → exec i s = .next t → exec i s' = .next t'
    → t.err = t'.err ∧ (t.err = none → ∀ r ∈ writesOf i, t.x.get r = t'.x.get r)

/-! ### Host accesses (10_state.md R39-R45; 20_memory.md R60) -/

/-- 10_state.md R39: a register read returns the stored bits (reserved bits 0, CMD 0, STATUS from the flags) and changes
nothing of the block, whatever BUSY is. -/
def Obligations.RegisterReadHasNoSideEffect : Prop :=
  ∀ (s : State) (r : RegName) (n : Nat), ∃ t, hostAccess (.regRead r.offset 4 n) s = .next t
    ∧ t = { s with host := t.host } ∧ nameValue t n = some (readReg s r)
    ∧ readReg s .cmd = 0 ∧ readReg s .status = statusWord s
    ∧ (r.hasStorage = true → readReg s r = s.x.get r ∧ s.x.get r &&& r.implemented = s.x.get r)

/-- 10_state.md R25 and 60_exceptions.md R200: the places of the STATUS fields, the reserved bits 0, the error codes. -/
def Obligations.StatusWordLayout : Prop :=
  ∀ s : State,
    (statusWord s).extractLsb 0 0 = BitVec.ofBool s.busy ∧ (statusWord s).extractLsb 1 1 = BitVec.ofBool s.done
      ∧ (statusWord s).extractLsb 2 2 = BitVec.ofBool s.wign ∧ (statusWord s).extractLsb 3 3 = 0
      ∧ (statusWord s).extractLsb 7 4 = errField s.err ∧ (statusWord s).extractLsb 31 8 = 0
      ∧ [none, some .illegalCmd, some .bufRange, some .skipRange, some .overflow, some .parseTooMany,
          some .parseTooFew, some .parseInvalid].map errField = [0, 1, 2, 3, 4, 5, 6, 7]

/-- 10_state.md R40: a register write while BUSY is 0. A RW register stores the implemented bits and nothing else
changes; CMD issues its word (legal or not, R85, R86); a RO register or an unmapped offset ignores it with no flag. -/
def Obligations.RegisterWriteWhileIdle : Prop :=
  ∀ (s : State) (off : BitVec 8) (v : Word), s.busy = false → off.toNat % 4 = 0
    → (∀ r, regAt off = some r → r.access = .rw
        → ∃ t, hostAccess (.regWrite off 4 v) s = .next t ∧ t = { s with x := t.x }
          ∧ t.x.get r = v &&& r.implemented ∧ ∀ r', r' ≠ r → t.x.get r' = s.x.get r')
      ∧ (regAt off = some .cmd → hostAccess (.regWrite off 4 v) s
          = .next (if isLegal v then issue v s else rejectWord s))
      ∧ ((regAt off = none ∨ ∃ r, regAt off = some r ∧ r.access = .ro) → hostAccess (.regWrite off 4 v) s = .next s)

/-- 10_state.md R41: a register write while BUSY is 1, to any offset, is ignored but for WIGN. -/
def Obligations.RegisterWriteWhileBusy : Prop :=
  ∀ (s : State) (off : BitVec 8) (v : Word), s.busy = true → off.toNat % 4 = 0
    → hostAccess (.regWrite off 4 v) s = .next { s with wign := true }

/-- 10_state.md R43: a register access that is not an aligned 32-bit access is refused, read or write. That a write is
refused also while BUSY is 1, where R41 speaks of a write to any offset, is the model's choice (log entry 10). -/
def Obligations.UndefinedRegisterAccessIsRefused : Prop :=
  ∀ (s : State) (off : BitVec 8) (width n : Nat) (v : Word), (width ≠ 4 ∨ off.toNat % 4 ≠ 0)
    → hostAccess (.regRead off width n) s = .refused .registerAccess
      ∧ hostAccess (.regWrite off width v) s = .refused .registerAccess

/-- 10_state.md R45: the unmapped offsets 0x7C-0xFC read 0, and writes to them are ignored (R40 while idle, R41 while
busy). -/
def Obligations.UnmappedOffsetsReadZero : Prop :=
  ∀ (s : State) (off : BitVec 8) (v : Word) (n : Nat), off.toNat % 4 = 0 → 0x7C ≤ off.toNat
    → (∃ t, hostAccess (.regRead off 4 n) s = .next t ∧ t = { s with host := t.host } ∧ nameValue t n = some 0)
      ∧ (s.busy = false → hostAccess (.regWrite off 4 v) s = .next s)
      ∧ (s.busy = true → hostAccess (.regWrite off 4 v) s = .next { s with wign := true })

/-- 70_reset_and_hazards.md R231 (with the effect of R230): a reset, a command in flight or not, abandons it: STATUS
and every register read 0 afterwards, PEND is 0, and HAZ and every BUF byte are unchanged. -/
def Obligations.ResetAbandonsTheCommand : Prop :=
  ∀ (s : State) (ts : List Turn), s.turns = .reset :: ts
    → ∃ t, step s = .next t ∧ (∀ r, readReg t r = 0) ∧ t.busy = false ∧ t.done = false ∧ t.pend = 0 ∧ t.haz = s.haz
        ∧ ∀ a, t.buf.byteAt a = s.buf.byteAt a

/-- 10_state.md R48: the values after power-on and after a later reset. R48 leaves BUF after power-up unspecified; that a
location reads as the free value `Config.powerUpByte` of its address is the model's choice (log entry 2). -/
def Obligations.ResetValues : Prop :=
  (∀ c r, readReg (State.powerOn c) r = 0 ∧ (State.powerOn c).busy = false ∧ (State.powerOn c).pend = 0
      ∧ (State.powerOn c).haz = false ∧ ∀ a, (State.powerOn c).buf.byteAt a = Config.powerUpByte a)
    ∧ ∀ s r, readReg (resetBlock s) r = 0 ∧ (resetBlock s).busy = false ∧ (resetBlock s).pend = 0
      ∧ (resetBlock s).haz = s.haz ∧ (resetBlock s).buf = s.buf

/-- 70_reset_and_hazards.md R236, 20_memory.md R70, R76: a Host BUF write sets HAZ iff it was set, or BUSY is 1 and the
address lies in an interval of the pending command's read set; no register, flag or latched word changes. That the
intervals of R70's table count also where the range check will fail (such a command reads nothing) and at the skipped
word is the model's choice (log entry 9). -/
def Obligations.BufWriteMarksHazard : Prop :=
  ∀ (s : State) (w : Word) (v : Byte), w.toNat < s.cfg.bufSize
    → ∃ t, hostAccess (.bufWrite w v) s = .next t ∧ t = { s with buf := t.buf, haz := t.haz }
        ∧ (t.haz = true ↔ s.haz = true ∨ (s.busy = true ∧ ∃ i d, decode s.pend = .ok i ∧ d ∈ readSet i s.x
            ∧ d.1.toNat ≤ w.toNat ∧ w.toNat < d.1.toNat + d.2.toNat))

/-- 20_memory.md R60, R67: a Host BUF write stores its byte at its address, every other location reads as before, and
the Host reads back what it wrote; at or above `BUF_SIZE` there is no location and the access faults (log entry 8). -/
def Obligations.BufWriteStoresOneByte : Prop :=
  ∀ (s : State) (w : Word) (v : Byte) (n : Nat),
    (w.toNat < s.cfg.bufSize → ∃ t, hostAccess (.bufWrite w v) s = .next t ∧ t.buf.byteAt w.toNat = v
        ∧ (∀ a, a ≠ w.toNat → t.buf.byteAt a = s.buf.byteAt a)
        ∧ ∃ u, hostAccess (.bufRead w n) t = .next u ∧ nameValue u n = some (v.setWidth 32) ∧ u = { t with host := u.host })
      ∧ (s.cfg.bufSize ≤ w.toNat → hostAccess (.bufWrite w v) s = .fault .bufAddress
        ∧ hostAccess (.bufRead w n) s = .fault .bufAddress)

/-- 70_reset_and_hazards.md R236, R240, 93_implementation_defined.md U2: while HAZ is 1 no command's result is defined:
every completion stops (the model's choice, log entry 3), and however the run goes on, a reset and a halt included, it
has no end state. -/
def Obligations.HazardStopsEveryCompletion : Prop :=
  ∀ s : State, s.haz = true → (∀ i, exec i s = .fault .bufHazard) ∧ ∀ k t, core.run k s = .next t → endState t = none

/-! ### Errors and frames (60_exceptions.md; 30_encoding.md R89) -/

/-- 60_exceptions.md R203: a command that raises an error changes only STATUS. -/
def Obligations.ErrorChangesOnlyStatus : Prop :=
  ∀ (i : Instr) (s t : State) (e : ErrCode), exec i s = .next t → t.err = some e
    → t = { s with err := some e, busy := false, done := true }

/-- 41_octets.md R101, 30_encoding.md R89: the frame of the BE_OCTETS commands. -/
def Obligations.OctetCommandsFrame : Prop :=
  ∀ i ∈ [Instr.beOctets8, .beOctets16, .beOctets32, .beOctets64], ∀ s t : State, exec i s = .next t
    → (∀ r, r ≠ .octOutHi → r ≠ .octOutLo → t.x.get r = s.x.get r)
      ∧ t.busy = false ∧ t.done = true ∧ t.err = none ∧ t.wign = s.wign ∧ t.pend = s.pend ∧ t.haz = s.haz
      ∧ t.cfg = s.cfg ∧ t.host = s.host ∧ t.turns = s.turns ∧ ∀ a, t.buf.byteAt a = s.buf.byteAt a

/-- 42_checksum.md, 43_pseudo_header.md, 30_encoding.md R89: the frame of the commands that write ACC or RESULT, each
with its destinations. -/
def Obligations.AccumulatorCommandsFrame : Prop :=
  ∀ p ∈ [(Instr.sum, [RegName.acc]), (.finalize, [.result]), (.checksum, [.acc, .result]),
      (.ipv4Checksum, [.acc, .result]), (.ipv6Checksum, [.acc, .result])],
    ∀ s t : State, exec p.1 s = .next t
    → (∀ r, r ∉ p.2 → t.x.get r = s.x.get r)
      ∧ t.busy = false ∧ t.done = true ∧ t.wign = s.wign ∧ t.pend = s.pend ∧ t.haz = s.haz
      ∧ t.cfg = s.cfg ∧ t.host = s.host ∧ t.turns = s.turns ∧ ∀ a, t.buf.byteAt a = s.buf.byteAt a

/-- 44_hwaddr.md R166, R172, 30_encoding.md R89: the frame of MAC_FORMAT and MAC_PARSE. -/
def Obligations.AddressCommandsFrame : Prop :=
  ∀ p ∈ [(Instr.macFormat, [RegName.fmt0, .fmt1, .fmt2, .fmt3, .fmt4]), (.macParse, [.macHi, .macLo])],
    ∀ s t : State, exec p.1 s = .next t
    → (∀ r, r ∉ p.2 → t.x.get r = s.x.get r)
      ∧ t.busy = false ∧ t.done = true ∧ t.wign = s.wign ∧ t.pend = s.pend ∧ t.haz = s.haz
      ∧ t.cfg = s.cfg ∧ t.host = s.host ∧ t.turns = s.turns ∧ ∀ a, t.buf.byteAt a = s.buf.byteAt a

/-! ### What each command does -/

/-- 41_octets.md R102: BE_OCTETS.N completes with the low N input bits at the top of OCT_OUT, and changes nothing else. -/
def Obligations.BeOctetsLeftJustifies : Prop :=
  ∀ s : State, s.haz = false
    → ∀ p ∈ [(Instr.beOctets8, 8), (.beOctets16, 16), (.beOctets32, 32), (.beOctets64, 64)],
      ∃ t, exec p.1 s = .next t
        ∧ t.x.octOutHi.toNat * 2 ^ 32 + t.x.octOutLo.toNat
          = (s.x.octInHi.toNat * 2 ^ 32 + s.x.octInLo.toNat) % 2 ^ p.2 * 2 ^ (64 - p.2)
        ∧ t = { s with
            x := { s.x with octOutHi := t.x.octOutHi, octOutLo := t.x.octOutLo }
            err := none, busy := false, done := true }

/-- 42_checksum.md R123 (and the pseudocode of R122): FINALIZE completes with RESULT[15:0] the complement of the folded
ACC; ACC is unchanged. -/
def Obligations.FinalizeFoldsAndInverts : Prop :=
  ∀ s : State, s.haz = false → exec .finalize s = .next { s with
    x := { s.x with result := BitVec.ofNat 16 (0xFFFF - fold16 s.x.acc.toNat) }
    err := none, busy := false, done := true }

/-- 42_checksum.md R120: SUM, case by case: BUF_RANGE, SKIP_RANGE, OVERFLOW in that order, else ACC <- ACC + the sum. -/
def Obligations.SumFollowsItsRule : Prop :=
  encode .sum = 0x00000002 ∧ ∀ s : State, s.haz = false →
    let d := bytes s.buf s.x.dataBase s.x.dataLen
    let inside := s.x.dataLen.toNat = 0 ∨ s.x.dataBase.toNat + s.x.dataLen.toNat ≤ s.cfg.bufSize
    let total := s.x.acc.toNat + sumBeWords d s.x.skip.toNat
    (¬ inside → exec .sum s = .next { s with err := some .bufRange, busy := false, done := true })
      ∧ (inside → d.length / 2 < s.x.skip.toNat
        → exec .sum s = .next { s with err := some .skipRange, busy := false, done := true })
      ∧ (inside → s.x.skip.toNat ≤ d.length / 2 → 0xFFFFFFFF < total
        → exec .sum s = .next { s with err := some .overflow, busy := false, done := true })
      ∧ (inside → s.x.skip.toNat ≤ d.length / 2 → total ≤ 0xFFFFFFFF
        → exec .sum s = .next { s with
            x := { s.x with acc := BitVec.ofNat 32 total }, err := none, busy := false, done := true })

/-- 42_checksum.md R124: CHECKSUM, case by case; the old ACC is not read. -/
def Obligations.ChecksumFollowsItsRule : Prop :=
  encode .checksum = 0x00000004 ∧ ∀ s : State, s.haz = false →
    let d := bytes s.buf s.x.dataBase s.x.dataLen
    let inside := s.x.dataLen.toNat = 0 ∨ s.x.dataBase.toNat + s.x.dataLen.toNat ≤ s.cfg.bufSize
    let total := sumBeWords d s.x.skip.toNat
    (¬ inside → exec .checksum s = .next { s with err := some .bufRange, busy := false, done := true })
      ∧ (inside → d.length / 2 < s.x.skip.toNat
        → exec .checksum s = .next { s with err := some .skipRange, busy := false, done := true })
      ∧ (inside → s.x.skip.toNat ≤ d.length / 2 → 0xFFFFFFFF < total
        → exec .checksum s = .next { s with err := some .overflow, busy := false, done := true })
      ∧ (inside → s.x.skip.toNat ≤ d.length / 2 → total ≤ 0xFFFFFFFF
        → exec .checksum s = .next { s with
            x := { s.x with acc := BitVec.ofNat 32 total, result := BitVec.ofNat 16 (0xFFFF - fold16 total) }
            err := none, busy := false, done := true })

/-- 43_pseudo_header.md R145 with R140, R142, R143: IPV4_CHECKSUM, case by case, with P4 written out; SRC1-SRC3 and
DST1-DST3 and the old ACC are not read. -/
def Obligations.Ipv4ChecksumFollowsItsRule : Prop :=
  encode .ipv4Checksum = 0x00000005 ∧ ∀ s : State, s.haz = false →
    let d := bytes s.buf s.x.dataBase s.x.dataLen
    let e := bytes s.buf s.x.extraBase s.x.extraLen
    let dataInside := s.x.dataLen.toNat = 0 ∨ s.x.dataBase.toNat + s.x.dataLen.toNat ≤ s.cfg.bufSize
    let extraInside := s.x.extraLen.toNat = 0 ∨ s.x.extraBase.toNat + s.x.extraLen.toNat ≤ s.cfg.bufSize
    let p4 := s.x.src0.toNat / 65536 + s.x.src0.toNat % 65536 + (s.x.dst0.toNat / 65536 + s.x.dst0.toNat % 65536)
      + s.x.proto.toNat + (s.x.dataLen.toNat + s.x.extraLen.toNat)
    let total := p4 + sumBeWords d s.x.skip.toNat + sumBeWords e (e.length / 2)
    (¬ dataInside ∨ ¬ extraInside
        → exec .ipv4Checksum s = .next { s with err := some .bufRange, busy := false, done := true })
      ∧ (dataInside → extraInside → d.length / 2 < s.x.skip.toNat
        → exec .ipv4Checksum s = .next { s with err := some .skipRange, busy := false, done := true })
      ∧ (dataInside → extraInside → s.x.skip.toNat ≤ d.length / 2 → 0xFFFFFFFF < total
        → exec .ipv4Checksum s = .next { s with err := some .overflow, busy := false, done := true })
      ∧ (dataInside → extraInside → s.x.skip.toNat ≤ d.length / 2 → total ≤ 0xFFFFFFFF
        → exec .ipv4Checksum s = .next { s with
            x := { s.x with acc := BitVec.ofNat 32 total, result := BitVec.ofNat 16 (0xFFFF - fold16 total) }
            err := none, busy := false, done := true })

/-- 43_pseudo_header.md R147 with R141, R142, R143: IPV6_CHECKSUM, case by case, with P6 (sixteen segments) written
out; the old ACC is not read. -/
def Obligations.Ipv6ChecksumFollowsItsRule : Prop :=
  encode .ipv6Checksum = 0x00000006 ∧ ∀ s : State, s.haz = false →
    let d := bytes s.buf s.x.dataBase s.x.dataLen
    let e := bytes s.buf s.x.extraBase s.x.extraLen
    let dataInside := s.x.dataLen.toNat = 0 ∨ s.x.dataBase.toNat + s.x.dataLen.toNat ≤ s.cfg.bufSize
    let extraInside := s.x.extraLen.toNat = 0 ∨ s.x.extraBase.toNat + s.x.extraLen.toNat ≤ s.cfg.bufSize
    let segments := [s.x.src0, s.x.src1, s.x.src2, s.x.src3, s.x.dst0, s.x.dst1, s.x.dst2, s.x.dst3].flatMap
      fun w => [w.toNat / 65536, w.toNat % 65536]
    let p6 := segments.sum + s.x.proto.toNat + (s.x.dataLen.toNat + s.x.extraLen.toNat)
    let total := p6 + sumBeWords d s.x.skip.toNat + sumBeWords e (e.length / 2)
    (¬ dataInside ∨ ¬ extraInside
        → exec .ipv6Checksum s = .next { s with err := some .bufRange, busy := false, done := true })
      ∧ (dataInside → extraInside → d.length / 2 < s.x.skip.toNat
        → exec .ipv6Checksum s = .next { s with err := some .skipRange, busy := false, done := true })
      ∧ (dataInside → extraInside → s.x.skip.toNat ≤ d.length / 2 → 0xFFFFFFFF < total
        → exec .ipv6Checksum s = .next { s with err := some .overflow, busy := false, done := true })
      ∧ (dataInside → extraInside → s.x.skip.toNat ≤ d.length / 2 → total ≤ 0xFFFFFFFF
        → exec .ipv6Checksum s = .next { s with
            x := { s.x with acc := BitVec.ofNat 32 total, result := BitVec.ofNat 16 (0xFFFF - fold16 total) }
            err := none, busy := false, done := true })

/-- 44_hwaddr.md R166 with R163, R164: MAC_FORMAT completes with the 17-byte text, two lowercase digits for each octet
and a colon between octets, then three 0x00 bytes; nothing else changes. -/
def Obligations.MacFormatWritesTheText : Prop :=
  encode .macFormat = 0x00000007 ∧ ∀ s : State, s.haz = false →
    let m : List Nat := [s.x.macHi.toNat / 2 ^ 24, s.x.macHi.toNat / 2 ^ 16 % 256, s.x.macHi.toNat / 2 ^ 8 % 256,
      s.x.macHi.toNat % 256, s.x.macLo.toNat / 256, s.x.macLo.toNat % 256]
    let digit : Nat → Nat := fun v => if v ≤ 9 then 0x30 + v else 0x61 + (v - 10)
    ∃ t, exec .macFormat s = .next t
      ∧ (∀ j < 6, ((fmtBytes t.x).getD (3 * j) 0).toNat = digit (m.getD j 0 / 16)
        ∧ ((fmtBytes t.x).getD (3 * j + 1) 0).toNat = digit (m.getD j 0 % 16))
      ∧ (∀ j < 5, (fmtBytes t.x).getD (3 * j + 2) 0 = 0x3A)
      ∧ (∀ k, 17 ≤ k → (fmtBytes t.x).getD k 0 = 0)
      ∧ t = { s with
          x := { s.x with fmt0 := t.x.fmt0, fmt1 := t.x.fmt1, fmt2 := t.x.fmt2, fmt3 := t.x.fmt3, fmt4 := t.x.fmt4 }
          err := none, busy := false, done := true }

/-- 44_hwaddr.md R172: MAC_PARSE checks the range, then reports the scan's error and commits nothing, or stores all six
octets. -/
def Obligations.MacParseFollowsItsRule : Prop :=
  encode .macParse = 0x00000008 ∧ ∀ s : State, s.haz = false →
    let inside := s.x.textLen.toNat = 0 ∨ s.x.textBase.toNat + s.x.textLen.toNat ≤ s.cfg.bufSize
    let text := bytes s.buf s.x.textBase s.x.textLen
    (¬ inside → exec .macParse s = .next { s with err := some .bufRange, busy := false, done := true })
      ∧ (∀ e, inside → parseMac text = .error e
        → (e = .parseTooMany ∨ e = .parseTooFew ∨ e = .parseInvalid)
          ∧ exec .macParse s = .next { s with err := some e, busy := false, done := true })
      ∧ (∀ m, inside → parseMac text = .ok m
        → ∃ m0 m1 m2 m3 m4 m5 : Byte, m = [m0, m1, m2, m3, m4, m5]
          ∧ exec .macParse s = .next { s with
              x := { s.x with macHi := m0 ++ m1 ++ m2 ++ m3, macLo := m4 ++ m5 }
              err := none, busy := false, done := true })

/-! ### Parsing (44_hwaddr.md) -/

/-- 44_hwaddr.md R170 (and the precedence of R171): the result of the scan, by the components. An invalid component
among the first six is INVALID; else a 7th component is TOO_MANY, valid or not; else fewer than six are TOO_FEW; else
the six values. -/
def Obligations.ParseReportsTheFirstFailure : Prop :=
  ∀ t : List Byte,
    let c := splitColons t
    (parseMac t = .error .parseInvalid ↔ ∃ k, k < 6 ∧ k < c.length ∧ componentValue (c.getD k []) = none)
      ∧ (parseMac t = .error .parseTooMany ↔ 7 ≤ c.length ∧ ∀ k < 6, (componentValue (c.getD k [])).isSome = true)
      ∧ (parseMac t = .error .parseTooFew
        ↔ c.length < 6 ∧ ∀ k < c.length, (componentValue (c.getD k [])).isSome = true)
      ∧ ∀ m, parseMac t = .ok m ↔ c.length = 6 ∧ c.map componentValue = m.map some

/-- 44_hwaddr.md R168: the text is cut at every colon: one component more than there are colons, no colon in any, and
the components joined by colons are the text. -/
def Obligations.SplitCutsAtEveryColon : Prop :=
  ∀ t : List Byte, (splitColons t).length = 1 + t.count 0x3A ∧ (∀ c ∈ splitColons t, (0x3A : Byte) ∉ c)
    ∧ [(0x3A : Byte)].intercalate (splitColons t) = t

/-- 44_hwaddr.md R169 with R167: a component is valid iff it is one or two hex digits of either case; its value. -/
def Obligations.ComponentIsOneOrTwoHexDigits : Prop :=
  let isHex : Byte → Prop := fun b =>
    (0x30 ≤ b.toNat ∧ b.toNat ≤ 0x39) ∨ (0x41 ≤ b.toNat ∧ b.toNat ≤ 0x46) ∨ (0x61 ≤ b.toNat ∧ b.toNat ≤ 0x66)
  let value : Byte → Nat := fun b =>
    if b.toNat ≤ 0x39 then b.toNat - 0x30 else if b.toNat ≤ 0x46 then b.toNat - 0x41 + 10 else b.toNat - 0x61 + 10
  (∀ k : List Byte, (componentValue k).isSome = true ↔ 1 ≤ k.length ∧ k.length ≤ 2 ∧ ∀ b ∈ k, isHex b)
    ∧ (∀ a v, componentValue [a] = some v → v.toNat = value a)
    ∧ ∀ a b v, componentValue [a, b] = some v → v.toNat = 16 * value a + value b

/-- 44_hwaddr.md R161: the Host constructs an address by two register writes, in either order; all six octets are
stored, no error arises, and the reserved bits written to MAC_LO do not matter. -/
def Obligations.AddressConstructionByTwoWrites : Prop :=
  ∀ (s : State) (m0 m1 m2 m3 m4 m5 : Byte) (low : BitVec 16), s.busy = false →
    let hi := fun u => regWrite 0x48 (m0 ++ m1 ++ m2 ++ m3) u
    let lo := fun u => regWrite 0x4C (m4 ++ m5 ++ low) u
    macOctets (lo (hi s)).x = [m0, m1, m2, m3, m4, m5] ∧ hi (lo s) = lo (hi s)
      ∧ lo (hi s) = { s with x := { s.x with macHi := m0 ++ m1 ++ m2 ++ m3, macLo := m4 ++ m5 } }

/-! ### Laws of the checksum (42_checksum.md, 43_pseudo_header.md) -/

/-- 42_checksum.md R118, (a) to (d). -/
def Obligations.FoldLaws : Prop :=
  ∀ x : Nat, fold16 x % 0xFFFF = x % 0xFFFF ∧ (fold16 x = 0 ↔ x = 0)
    ∧ (0 < x → 1 ≤ fold16 x ∧ fold16 x ≤ 0xFFFF) ∧ (fold16 x = 0xFFFF ↔ 0 < x ∧ x % 0xFFFF = 0)
    ∧ (x ≤ 0xFFFF → fold16 x = x)

/-- 42_checksum.md R117: two folds are enough for every 32-bit value, and 0x0001FFFF needs both. -/
def Obligations.FoldTakesAtMostTwoRounds : Prop :=
  let round : Nat → Nat := fun x => if 0x10000 ≤ x then x / 2 ^ 16 + x % 2 ^ 16 else x
  (∀ x, x ≤ 0xFFFFFFFF → round x ≤ 0x1FFFE ∧ round (round x) ≤ 0xFFFF ∧ fold16 x = round (round x))
    ∧ round 0x1FFFF = 0x10000 ∧ round (round 0x1FFFF) = 1

/-- 42_checksum.md R119. -/
def Obligations.FinalizeLaws : Prop :=
  ∀ x y : Nat, (finalizeSum x = 0xFFFF ↔ x = 0) ∧ (finalizeSum x = 0 ↔ fold16 x = 0xFFFF)
    ∧ (fold16 x = fold16 y → finalizeSum x = finalizeSum y)

/-- 42_checksum.md R125: the bound on a sum; CHECKSUM raises no OVERFLOW up to 131074 bytes, where the bound is
reached. -/
def Obligations.ChecksumNeverOverflowsOnShortData : Prop :=
  (∀ (d : List Byte) (k : Nat), sumBeWords d k ≤ d.length / 2 * 0xFFFF + d.length % 2 * 0xFF00)
    ∧ (∀ s t : State, exec .checksum s = .next t → s.x.dataLen.toNat ≤ 131074 → t.err ≠ some .overflow)
    ∧ sumBeWords (List.replicate 131074 0xFF) 65537 = 0xFFFFFFFF

/-- 43_pseudo_header.md R146, R148: the lengths up to which the pseudo-header commands raise no OVERFLOW. -/
def Obligations.PseudoHeaderNeverOverflowsOnShortData : Prop :=
  ∀ s t : State,
    (exec .ipv4Checksum s = .next t → s.x.dataLen.toNat + s.x.extraLen.toNat ≤ 131061 → t.err ≠ some .overflow)
      ∧ (exec .ipv6Checksum s = .next t → s.x.dataLen.toNat + s.x.extraLen.toNat ≤ 131037 → t.err ≠ some .overflow)

/-- 42_checksum.md R121: a sequence of successful SUMs over the descriptors `l`, from ACC = 0, leaves in ACC the sum of
their sums. `f j` is the state after `j` of them; the Host sets the descriptor and SKIP before each. -/
def Obligations.SequenceOfSumsAddsUp : Prop :=
  ∀ (l : List (Word × Word × Word)) (f : Nat → State), (f 0).x.acc = 0
    → (∀ j (h : j < l.length), exec .sum (putReg .skip l[j].2.2 (putReg .dataLen l[j].2.1 (putReg .dataBase l[j].1 (f j))))
          = .next (f (j + 1)) ∧ (f (j + 1)).err = none)
    → (f l.length).x.acc.toNat = (l.map fun d => sumBeWords (bytes (f 0).buf d.1 d.2.1) d.2.2.toNat).sum

/-- 42_checksum.md R126: put the checksum into its own field, and the folded sum of the whole buffer is 0xFFFF and
CHECKSUM over it with the sentinel gives 0. -/
def Obligations.ChecksumRoundTrip : Prop :=
  ∀ (d : List Byte) (k : Nat), k < d.length / 2 →
    let d' := putWordAt d k (finalizeSum (sumBeWords d k))
    sumBeWords d' (d.length / 2) ≤ 0xFFFFFFFF
      → fold16 (sumBeWords d' (d'.length / 2)) = 0xFFFF
        ∧ ∀ s : State, s.haz = false → dataInRange s → dataBytes s = d' → s.x.skip.toNat = d'.length / 2
          → ∃ t, exec .checksum s = .next t ∧ t.err = none ∧ t.x.result = 0

/-- 43_pseudo_header.md R151: the same round trip with a pseudo-header. `s'` is the state of the repeat: same
operand registers but SKIP, the checksum at its word of the data, the extra buffer as it was (R151 speaks of no other change; an
extra buffer that overlaps the stored word is not meant). -/
def Obligations.PseudoHeaderRoundTrip : Prop :=
  ∀ i ∈ [Instr.ipv4Checksum, .ipv6Checksum], ∀ s t s' t' : State, exec i s = .next t → t.err = none
    → s.x.skip.toNat < s.x.dataLen.toNat / 2
    → s'.cfg = s.cfg → (∀ r ∈ readsOf i, r ≠ .skip → s'.x.get r = s.x.get r)
    → s'.x.skip.toNat = s.x.dataLen.toNat / 2
    → dataBytes s' = putWordAt (dataBytes s) s.x.skip.toNat t.x.result → extraBytes s' = extraBytes s
    → exec i s' = .next t' → t'.err ≠ some .overflow
    → t'.err = none ∧ t'.x.result = 0 ∧ fold16 t'.x.acc.toNat = 0xFFFF

/-- 42_checksum.md R127, and R111's consequence: the bytes of the skipped word never matter, and skipping a word equals
summing all of the buffer with that word set to zero. -/
def Obligations.SkippedWordCountsAsZero : Prop :=
  ∀ (d : List Byte) (k : Nat), k < d.length / 2
    → (∀ c, sumBeWords (putWordAt d k c) k = sumBeWords d k)
      ∧ sumBeWords d k = sumBeWords (putWordAt d k 0) ((putWordAt d k 0).length / 2)

/-- 43_pseudo_header.md R150: the split law for an even first buffer, at a word and at the sentinel; the first buffer's
sentinel, used on the concatenation, zeroes the first extra word; and the odd counterexample. -/
def Obligations.SplitLaw : Prop :=
  (∀ d e : List Byte, d.length % 2 = 0 →
      (∀ k, k < d.length / 2 → sumBeWords d k + sumBeWords e (e.length / 2) = sumBeWords (d ++ e) k)
        ∧ sumBeWords d (d.length / 2) + sumBeWords e (e.length / 2) = sumBeWords (d ++ e) ((d ++ e).length / 2)
        ∧ sumBeWords (d ++ e) (d.length / 2) = sumBeWords d (d.length / 2) + sumBeWords e 0)
    ∧ sumBeWords [0x01, 0x02, 0x03] 1 + sumBeWords [0x04, 0x05] 1 = 0x0807
    ∧ sumBeWords [0x01, 0x02, 0x03, 0x04, 0x05] 2 = 0x0906

/-- 43_pseudo_header.md R149: a successful pseudo-header command leaves the ACC and RESULT that the primitives leave:
ACC <- P, SUM over data, SUM over extra with the sentinel, FINALIZE. -/
def Obligations.PseudoHeaderCommandsDecompose : Prop :=
  ∀ p ∈ [(Instr.ipv4Checksum, pseudoV4), (.ipv6Checksum, pseudoV6)], ∀ s t : State,
    exec p.1 s = .next t → t.err = none
    → ∃ s2 s3 s4, exec .sum (putReg .acc (BitVec.ofNat 32 (p.2 s.x)) s) = .next s2 ∧ s2.err = none
        ∧ exec .sum (putReg .skip (BitVec.ofNat 32 (s.x.extraLen.toNat / 2))
            (putReg .dataLen s.x.extraLen (putReg .dataBase s.x.extraBase s2))) = .next s3 ∧ s3.err = none
        ∧ exec .finalize s3 = .next s4 ∧ s4.x.acc = t.x.acc ∧ s4.x.result = t.x.result

/-- 43_pseudo_header.md R143: adding the length as one number or as its two 16-bit halves gives the same checksum. -/
def Obligations.LengthTermMayBeHalved : Prop :=
  ∀ s l : Nat, finalizeSum (s + l) = finalizeSum (s + (l / 2 ^ 16 + l % 2 ^ 16))

/-! ### Laws of the hardware-address unit (44_hwaddr.md) -/

/-- 44_hwaddr.md R173: MAC_PARSE of a text of six two-digit lowercase components, then MAC_FORMAT, gives the text again;
uppercase parses to the same value; parsing a formatted address gives the address. -/
def Obligations.MacTextRoundTrip : Prop :=
  (∀ (s : State) (text : List Byte), s.haz = false → textInRange s → textBytes s = text → text.length = 17
      → (∀ k < 17, if k % 3 = 2 then text.getD k 0 = 0x3A
          else (0x30 ≤ (text.getD k 0).toNat ∧ (text.getD k 0).toNat ≤ 0x39)
            ∨ (0x61 ≤ (text.getD k 0).toNat ∧ (text.getD k 0).toNat ≤ 0x66))
      → ∃ t u, exec .macParse s = .next t ∧ t.err = none ∧ exec .macFormat t = .next u ∧ u.err = none
          ∧ (fmtBytes u.x).take 17 = text)
    ∧ (∀ text : List Byte,
        parseMac (text.map fun b => if 0x61 ≤ b.toNat ∧ b.toNat ≤ 0x66 then b - 0x20 else b) = parseMac text)
    ∧ ∀ m : List Byte, m.length = 6 → parseMac (formatMac m) = .ok m

/-- 44_hwaddr.md R165: formatting is injective on addresses; its output has length 17; a digit byte is in 0x30-0x39 or
0x61-0x66; a zero octet gives "00". -/
def Obligations.FormatIsInjective : Prop :=
  ∀ m m' : List Byte, m.length = 6 → m'.length = 6
    → (formatMac m = formatMac m' → m = m') ∧ (formatMac m).length = 17
      ∧ (∀ k < 17, k % 3 ≠ 2 → let b := ((formatMac m).getD k 0).toNat
          (0x30 ≤ b ∧ b ≤ 0x39) ∨ (0x61 ≤ b ∧ b ≤ 0x66))
      ∧ ∀ j < 6, m.getD j 0 = 0 → (formatMac m).getD (3 * j) 0 = 0x30 ∧ (formatMac m).getD (3 * j + 1) 0 = 0x30

/-! ### Reset state and Host programs -/

/-- 70_reset_and_hazards.md R233: what each command gives from the state after power-on, for every `BUF_SIZE`. -/
def Obligations.EveryCommandIsDefinedFromReset : Prop :=
  ∀ c : Config,
    (∀ i ∈ [Instr.beOctets8, .beOctets16, .beOctets32, .beOctets64], ∃ t, exec i (State.powerOn c) = .next t
        ∧ t.err = none ∧ t.x.octOutHi = 0 ∧ t.x.octOutLo = 0)
      ∧ (∃ t, exec .sum (State.powerOn c) = .next t ∧ t.err = none ∧ t.x.acc = 0)
      ∧ (∀ i ∈ [Instr.finalize, .checksum], ∃ t, exec i (State.powerOn c) = .next t ∧ t.err = none ∧ t.x.result = 0xFFFF)
      ∧ (∀ i ∈ [Instr.ipv4Checksum, .ipv6Checksum], ∃ t, exec i (State.powerOn c) = .next t ∧ t.err = none
        ∧ t.x.acc = 0 ∧ t.x.result = 0xFFFF)
      ∧ (∃ t, exec .macFormat (State.powerOn c) = .next t ∧ t.err = none
        ∧ fmtBytes t.x = [0x30, 0x30, 0x3A, 0x30, 0x30, 0x3A, 0x30, 0x30, 0x3A, 0x30, 0x30, 0x3A, 0x30, 0x30, 0x3A,
            0x30, 0x30, 0, 0, 0])
      ∧ ∃ t, exec .macParse (State.powerOn c) = .next t ∧ t.err = some .parseInvalid

/-- 30_encoding.md R93, R95, 20_memory.md R75, 70_reset_and_hazards.md R240: the Host program `run M -> n; halt`, from an
idle block with no hazard and an empty schedule, halts with the command completed, having read the STATUS that shows
it, and its end state is defined. The order of the steps is the model's default (log entry 4), and their number, six,
is the model's count of the Host's steps: a label and a branch take one each (log entry 5). -/
def Obligations.RunStatementReadsTheCompletedStatus : Prop :=
  ∀ (s : State) (i : Instr) (n : Nat), s.busy = false → s.haz = false → s.turns = []
    → s.host = { prog := assemble [.run i n, .stmt .halt], pc := 0, names := [], halted := false }
    → ∃ t u, exec i (issue (encode i) s) = .next u ∧ core.run 6 s = .next t ∧ t.host.halted = true
        ∧ runEnded t = true ∧ t.x = u.x ∧ t.err = u.err ∧ nameValue t n = some (readReg t .status)
        ∧ endState t = some { x := u.x, status := statusWord u, buf := s.buf, haz := false }

/-! ### The register map -/

/-- 10_state.md R23 (offset, name and access key of each of the 31 registers; R44 for the read-only results) and R45's
gap: the registers are at these offsets with these keys, and at no other offset is there a register. 20_memory.md R60:
the window's 256 addresses in the Host's map begin at `REG_BASE`, whatever that is. -/
def Obligations.RegisterMapFollowsTheTable : Prop :=
  let table : List (BitVec 8 × RegName × AccessKey) :=
    [(0x00, .cmd, .wo), (0x04, .status, .ro), (0x08, .acc, .rw), (0x0C, .result, .ro), (0x10, .dataBase, .rw),
      (0x14, .dataLen, .rw), (0x18, .skip, .rw), (0x1C, .extraBase, .rw), (0x20, .extraLen, .rw), (0x24, .proto, .rw)]
    ++ [(0x28, .src0, .rw), (0x2C, .src1, .rw), (0x30, .src2, .rw), (0x34, .src3, .rw), (0x38, .dst0, .rw),
      (0x3C, .dst1, .rw), (0x40, .dst2, .rw), (0x44, .dst3, .rw), (0x48, .macHi, .rw), (0x4C, .macLo, .rw)]
    ++ [(0x50, .textBase, .rw), (0x54, .textLen, .rw), (0x58, .octInHi, .rw), (0x5C, .octInLo, .rw),
      (0x60, .octOutHi, .ro), (0x64, .octOutLo, .ro), (0x68, .fmt0, .ro), (0x6C, .fmt1, .ro), (0x70, .fmt2, .ro),
      (0x74, .fmt3, .ro), (0x78, .fmt4, .ro)]
  (∀ off r k, (off, r, k) ∈ table ↔ regAt off = some r ∧ r.access = k) ∧ (∀ r, regAt r.offset = some r)
    ∧ (∀ c r, windowOffset c (registerAddress c r) = some r.offset)
    ∧ ∀ c a off, windowOffset c a = some off ↔ a = c.regBase + off.toNat
end

