-- ==== Sys2Proof/Laws/Fold.lean ====
section
/-! SUPPORT. Folding: one unfolding of the loop, its bound, and what folding keeps (42_checksum.md R115). -/

namespace Sys2Proof.Machine

theorem foldStep_eq (x : Nat) : foldStep x = x / 65536 + x % 65536 := by
  have h : x &&& 65535 = x % 65536 := Nat.and_two_pow_sub_one_eq_mod x 16
  simp [foldStep, Nat.shiftRight_eq_div_pow, h]

/-- A fold the loop takes makes the value smaller. -/
theorem foldStep_lt {x : Nat} (h : 0x10000 ≤ x) : foldStep x < x := by
  rw [foldStep_eq]
  omega

theorem foldStep_pos {x : Nat} (h : 0 < x) : 0 < foldStep x := by
  rw [foldStep_eq]
  omega

theorem foldStep_mod (x : Nat) : foldStep x % 0xFFFF = x % 0xFFFF := by
  rw [foldStep_eq]
  omega

/-- Rounds beyond the value change nothing. -/
theorem foldLoop_eq {n m x : Nat} (hn : x ≤ n) (hm : x ≤ m) : foldLoop n x = foldLoop m x := by
  induction n generalizing m x with
  | zero =>
    have : x = 0 := by omega
    subst this
    cases m <;> simp [foldLoop]
  | succ n ih =>
    cases m with
    | zero =>
      have : x = 0 := by omega
      subst this
      simp [foldLoop]
    | succ m =>
      simp only [foldLoop]
      split
      · rename_i h
        have := foldStep_lt h
        exact ih (by omega) (by omega)
      · rfl

/-- One round of the loop of 42_checksum.md R115. -/
theorem fold16_step {x : Nat} (h : 0x10000 ≤ x) : fold16 x = fold16 (foldStep x) := by
  obtain ⟨n, rfl⟩ : ∃ n, x = n + 1 := ⟨x - 1, by omega⟩
  have := foldStep_lt h
  rw [fold16, foldLoop, if_pos h]
  exact foldLoop_eq (by omega) le_rfl

/-- The loop stops below 0x10000. -/
theorem fold16_of_lt {x : Nat} (h : x < 0x10000) : fold16 x = x := by
  cases x with
  | zero => rfl
  | succ n => rw [fold16, foldLoop, if_neg (by omega)]

/-- What every round keeps holds of the folded value. -/
theorem fold16_induction {P : Nat → Nat → Prop} (base : ∀ x, x < 0x10000 → P x x)
    (round : ∀ x y, 0x10000 ≤ x → P (foldStep x) y → P x y) (x : Nat) : P x (fold16 x) := by
  induction x using Nat.strong_induction_on with
  | _ x ih =>
    by_cases h : x < 0x10000
    · rw [fold16_of_lt h]
      exact base x h
    · rw [fold16_step (by omega)]
      exact round x _ (by omega) (ih _ (foldStep_lt (by omega)))

theorem fold16_lt (x : Nat) : fold16 x < 0x10000 :=
  fold16_induction (P := fun _ y => y < 0x10000) (fun _ h => h) (fun _ _ _ h => h) x

theorem fold16_mod (x : Nat) : fold16 x % 0xFFFF = x % 0xFFFF :=
  fold16_induction (P := fun x y => y % 0xFFFF = x % 0xFFFF) (fun _ _ => rfl)
    (fun x _ _ h => h.trans (foldStep_mod x)) x

theorem fold16_pos {x : Nat} (h : 0 < x) : 0 < fold16 x :=
  fold16_induction (P := fun x y => 0 < x → 0 < y) (fun _ _ h => h)
    (fun _ _ _ ih h => ih (foldStep_pos h)) x h

/-- The number in the result of `finalize` (42_checksum.md R116). -/
theorem finalizeSum_toNat (x : Nat) : (finalizeSum x).toNat = 0xFFFF - fold16 x := by
  have := fold16_lt x
  simp [finalizeSum, BitVec.toNat_not]
  omega

end Sys2Proof.Machine
end

