-- ==== Sys2Proof/Laws/Memory.lean ====
section
/-! SUPPORT. BUF: a read after a write, every other place alone, the canonical form kept; buffers as byte lists. -/

namespace Sys2Proof.Machine

theorem Memory.read?_write (m : Memory) (a b : Nat) (v : Byte) :
    (m.write a v).read? b = if a = b then some v else m.read? b := by
  induction m with
  | nil => rfl
  | cons c m ih =>
    obtain ⟨x, w⟩ := c
    by_cases h : a = b
    · subst h
      simp only [Memory.write, if_true]
      split
      · simp [Memory.read?]
      · split
        · simp [Memory.read?]
        · rename_i h1 h2
          simp [Memory.read?, Ne.symm h2, ih]
    · simp only [Memory.write, h, if_false] at ih ⊢
      split
      · simp [Memory.read?, h]
      · split
        · rename_i h2
          subst h2
          simp [Memory.read?, h]
        · simp [Memory.read?, ih]

/-- A location written holds the value written. -/
theorem Memory.byteAt_write_same (m : Memory) (a : Nat) (v : Byte) : (m.write a v).byteAt a = v := by
  simp [Memory.byteAt, Memory.read?_write]

/-- A write leaves every other location alone. -/
theorem Memory.byteAt_write_other (m : Memory) {a b : Nat} (h : a ≠ b) (v : Byte) :
    (m.write a v).byteAt b = m.byteAt b := by
  simp [Memory.byteAt, Memory.read?_write, h]

/-- The addresses after a write: the written one and the old ones. -/
theorem Memory.mem_write (m : Memory) (a : Nat) (v : Byte) (c : Host.Cell) (h : c ∈ m.write a v) :
    c = (a, v) ∨ c ∈ m := by
  induction m with
  | nil => simpa [Memory.write] using h
  | cons d m ih =>
    obtain ⟨x, w⟩ := d
    simp only [Memory.write] at h
    split at h
    · simpa using h
    · split at h
      · simp only [List.mem_cons] at h ⊢
        tauto
      · simp only [List.mem_cons] at h ⊢
        rcases h with h | h
        · exact .inr (.inl h)
        · exact (ih h).imp_right .inr

/-- A write keeps the canonical form. -/
theorem Memory.write_wf (m : Memory) (a : Nat) (v : Byte) (h : m.wf) : (m.write a v).wf := by
  induction m with
  | nil => simp [Memory.write, Memory.wf]
  | cons d m ih =>
    obtain ⟨x, w⟩ := d
    simp only [Memory.wf, List.pairwise_cons] at h ih ⊢
    simp only [Memory.write]
    split
    · rename_i hlt
      refine List.pairwise_cons.2 ⟨fun c hc => ?_, List.pairwise_cons.2 h⟩
      rcases List.mem_cons.1 hc with rfl | hc
      · exact hlt
      · exact Nat.lt_trans hlt (h.1 c hc)
    · split
      · rename_i _ heq
        subst heq
        exact List.pairwise_cons.2 h
      · rename_i hlt hne
        refine List.pairwise_cons.2 ⟨fun c hc => ?_, ih h.2⟩
        rcases Memory.mem_write m a v c hc with rfl | hc
        · show x < a
          omega
        · exact h.1 c hc

/-- A write at an existing address keeps BUF within its size. -/
theorem Memory.write_within (m : Memory) {size a : Nat} (v : Byte) (h : m.within size) (ha : a < size) :
    (m.write a v).within size := by
  intro c hc
  rcases Memory.mem_write m a v c hc with rfl | hc
  · exact ha
  · exact h c hc

@[simp] theorem bytes_length (m : Memory) (base len : Word) : (bytes m base len).length = len.toNat := by
  simp [bytes]

theorem bytes_getD (m : Memory) (base len : Word) {i : Nat} (h : i < len.toNat) :
    (bytes m base len).getD i 0 = m.byteAt (base.toNat + i) := by
  simp [bytes, List.getD, h]

/-- Two memories that agree on a buffer's locations give the same byte list (20_memory.md R71). -/
theorem bytes_congr {m m' : Memory} {base len : Word}
    (h : ∀ a, inDescriptor a (base, len) = true → m.byteAt a = m'.byteAt a) : bytes m base len = bytes m' base len := by
  simp only [bytes, List.map_inj_left, List.mem_range]
  intro i hi
  exact h _ (by simp [inDescriptor, hi])

end Sys2Proof.Machine
end

