-- ==== Sys2Proof/Laws/Regs.lean ====
section
/-! SUPPORT. The register file: a read after a store, every other register alone, commits, and the register map. -/

namespace Sys2Proof.Machine

theorem and_lowByte (v : Word) : (v.extractLsb 7 0).setWidth 32 = v &&& 0x000000FF := by
  ext i hi
  interval_cases i <;> simp

theorem and_lowHalf (v : Word) : (v.extractLsb 15 0).setWidth 32 = v &&& 0x0000FFFF := by
  ext i hi
  interval_cases i <;> simp

theorem getLsbD_append_zero (a : BitVec 16) (i : Nat) :
    (a ++ (0 : BitVec 16)).getLsbD i = if i < 16 then false else a.getLsbD (i - 16) := by
  rw [BitVec.getLsbD_append]
  simp

theorem and_highHalf (v : Word) : v.extractLsb 31 16 ++ (0 : BitVec 16) = v &&& 0xFFFF0000 := by
  apply BitVec.eq_of_getLsbD_eq
  intro i hi
  refine (getLsbD_append_zero _ i).trans ?_
  change i < 32 at hi
  interval_cases i <;> simp

theorem and_allOnes (v : Word) : v = v &&& 0xFFFFFFFF := by
  ext i hi
  interval_cases i <;> simp

/-- A store keeps the implemented bits (10_state.md R40). -/
theorem Regs.get_set_self (x : Regs) (r : RegName) (v : Word) : (x.set r v).get r = v &&& r.implemented := by
  cases r
  case cmd => simp [Regs.get, RegName.implemented]
  case status => simp [Regs.get, RegName.implemented]
  case result => exact and_lowHalf v
  case proto => exact and_lowByte v
  case macLo => exact and_highHalf v
  all_goals exact and_allOnes v

/-- A store leaves every other register alone. -/
theorem Regs.get_set_ne (x : Regs) {r r' : RegName} (h : r' ≠ r) (v : Word) : (x.set r v).get r' = x.get r' := by
  cases r
  all_goals (cases r' <;> first | exact (h rfl).elim | with_reducible_and_instances exact rfl | rfl)

/-- The reserved bits of a register read 0 (10_state.md R27, R31, R33, R39). -/
theorem Regs.get_implemented (x : Regs) (r : RegName) : x.get r &&& r.implemented = x.get r := by
  cases r
  case cmd => simp [Regs.get]
  case status => simp [Regs.get]
  case result =>
    simp only [Regs.get, RegName.implemented]
    ext i hi
    interval_cases i <;> simp
  case proto =>
    simp only [Regs.get, RegName.implemented]
    ext i hi
    interval_cases i <;> simp
  case macLo =>
    apply BitVec.eq_of_getLsbD_eq
    intro i hi
    rw [BitVec.getLsbD_and]
    have h := getLsbD_append_zero x.macLo i
    change (x.get .macLo).getLsbD i = _ at h
    rw [h]
    simp only [RegName.implemented]
    interval_cases i <;> simp
  all_goals exact (and_allOnes _).symm

/-- A commit leaves every register alone that it does not name. -/
theorem Regs.get_commit_notMem (c : Commit) (x : Regs) {r : RegName} (h : r ∉ c.map (·.1)) :
    (x.commit c).get r = x.get r := by
  induction c generalizing x with
  | nil => rfl
  | cons w c ih =>
    simp only [List.map_cons, List.mem_cons, not_or] at h
    simp only [Regs.commit, List.foldl_cons] at ih ⊢
    rw [ih _ h.2, Regs.get_set_ne x h.1]

/-- What a register holds after a commit depends on the register file only where the commit does not write. -/
theorem Regs.get_commit_mem (c : Commit) (x y : Regs) {r : RegName} (h : r ∈ c.map (·.1)) :
    (x.commit c).get r = (y.commit c).get r := by
  induction c generalizing x y with
  | nil => simp at h
  | cons w c ih =>
    by_cases hc : r ∈ c.map (·.1)
    · exact ih _ _ hc
    · have hw : r = w.1 := by simpa [hc] using h
      subst hw
      have hx := Regs.get_commit_notMem c (x.set w.1 w.2) hc
      have hy := Regs.get_commit_notMem c (y.set w.1 w.2) hc
      simp only [Regs.commit, List.foldl_cons] at hx hy ⊢
      rw [hx, hy, Regs.get_set_self, Regs.get_set_self]

/-- The register at a register's offset is that register (10_state.md R23). -/
@[simp] theorem regAt_offset (r : RegName) : regAt r.offset = some r := by
  cases r <;> rfl

/-- A register found at an offset has that offset. -/
theorem offset_of_regAt {off : BitVec 8} {r : RegName} (h : regAt off = some r) : r.offset = off := by
  have := List.find?_some h
  simpa using this

/-- The window translates exactly its own 256 addresses (20_memory.md R60). -/
theorem windowOffset_eq_some {c : Config} {addr : Nat} {off : BitVec 8} :
    windowOffset c addr = some off ↔ addr = c.regBase + off.toNat := by
  have := off.isLt
  unfold windowOffset
  split
  · rw [Option.some.injEq, ← BitVec.toNat_inj, BitVec.toNat_ofNat]
    omega
  · constructor
    · intro h
      cases h
    · omega

/-- The Host reaches a register at its address in the Host's map. -/
@[simp] theorem windowOffset_registerAddress (c : Config) (r : RegName) :
    windowOffset c (registerAddress c r) = some r.offset :=
  windowOffset_eq_some.2 rfl

/-- Every register offset is a multiple of 4 (10_state.md R23). -/
theorem offset_aligned (r : RegName) : r.offset.toNat % 4 = 0 := by
  cases r <;> rfl

end Sys2Proof.Machine
end

