-- ==== Sys2Proof/Laws/State.lean ====
section
/-! SUPPORT. What each named update of the state does to each field. -/

namespace Sys2Proof.Machine

/-! ### `completeOk` -/

@[simp] theorem completeOk_cfg (s : State) : (completeOk s).cfg = s.cfg := rfl
@[simp] theorem completeOk_x (s : State) : (completeOk s).x = s.x := rfl
@[simp] theorem completeOk_buf (s : State) : (completeOk s).buf = s.buf := rfl
@[simp] theorem completeOk_busy (s : State) : (completeOk s).busy = false := rfl
@[simp] theorem completeOk_done (s : State) : (completeOk s).done = true := rfl
@[simp] theorem completeOk_wign (s : State) : (completeOk s).wign = s.wign := rfl
@[simp] theorem completeOk_err (s : State) : (completeOk s).err = none := rfl
@[simp] theorem completeOk_pend (s : State) : (completeOk s).pend = s.pend := rfl
@[simp] theorem completeOk_haz (s : State) : (completeOk s).haz = s.haz := rfl
@[simp] theorem completeOk_host (s : State) : (completeOk s).host = s.host := rfl
@[simp] theorem completeOk_turns (s : State) : (completeOk s).turns = s.turns := rfl

/-! ### `raiseError` -/

@[simp] theorem raiseError_cfg (e : ErrCode) (s : State) : (raiseError e s).cfg = s.cfg := rfl
@[simp] theorem raiseError_x (e : ErrCode) (s : State) : (raiseError e s).x = s.x := rfl
@[simp] theorem raiseError_buf (e : ErrCode) (s : State) : (raiseError e s).buf = s.buf := rfl
@[simp] theorem raiseError_busy (e : ErrCode) (s : State) : (raiseError e s).busy = false := rfl
@[simp] theorem raiseError_done (e : ErrCode) (s : State) : (raiseError e s).done = true := rfl
@[simp] theorem raiseError_wign (e : ErrCode) (s : State) : (raiseError e s).wign = s.wign := rfl
@[simp] theorem raiseError_err (e : ErrCode) (s : State) : (raiseError e s).err = some e := rfl
@[simp] theorem raiseError_pend (e : ErrCode) (s : State) : (raiseError e s).pend = s.pend := rfl
@[simp] theorem raiseError_haz (e : ErrCode) (s : State) : (raiseError e s).haz = s.haz := rfl
@[simp] theorem raiseError_host (e : ErrCode) (s : State) : (raiseError e s).host = s.host := rfl
@[simp] theorem raiseError_turns (e : ErrCode) (s : State) : (raiseError e s).turns = s.turns := rfl

/-! ### `issue` -/

@[simp] theorem issue_cfg (v : Word) (s : State) : (issue v s).cfg = s.cfg := rfl
@[simp] theorem issue_x (v : Word) (s : State) : (issue v s).x = s.x := rfl
@[simp] theorem issue_buf (v : Word) (s : State) : (issue v s).buf = s.buf := rfl
@[simp] theorem issue_busy (v : Word) (s : State) : (issue v s).busy = true := rfl
@[simp] theorem issue_done (v : Word) (s : State) : (issue v s).done = false := rfl
@[simp] theorem issue_wign (v : Word) (s : State) : (issue v s).wign = false := rfl
@[simp] theorem issue_err (v : Word) (s : State) : (issue v s).err = none := rfl
@[simp] theorem issue_pend (v : Word) (s : State) : (issue v s).pend = v := rfl
@[simp] theorem issue_haz (v : Word) (s : State) : (issue v s).haz = s.haz := rfl
@[simp] theorem issue_host (v : Word) (s : State) : (issue v s).host = s.host := rfl
@[simp] theorem issue_turns (v : Word) (s : State) : (issue v s).turns = s.turns := rfl

/-! ### `rejectWord` -/

@[simp] theorem rejectWord_cfg (s : State) : (rejectWord s).cfg = s.cfg := rfl
@[simp] theorem rejectWord_x (s : State) : (rejectWord s).x = s.x := rfl
@[simp] theorem rejectWord_buf (s : State) : (rejectWord s).buf = s.buf := rfl
@[simp] theorem rejectWord_busy (s : State) : (rejectWord s).busy = false := rfl
@[simp] theorem rejectWord_done (s : State) : (rejectWord s).done = true := rfl
@[simp] theorem rejectWord_wign (s : State) : (rejectWord s).wign = false := rfl
@[simp] theorem rejectWord_err (s : State) : (rejectWord s).err = some .illegalCmd := rfl
@[simp] theorem rejectWord_pend (s : State) : (rejectWord s).pend = s.pend := rfl
@[simp] theorem rejectWord_haz (s : State) : (rejectWord s).haz = s.haz := rfl
@[simp] theorem rejectWord_host (s : State) : (rejectWord s).host = s.host := rfl
@[simp] theorem rejectWord_turns (s : State) : (rejectWord s).turns = s.turns := rfl

/-! ### `dropWrite` -/

@[simp] theorem dropWrite_cfg (s : State) : (dropWrite s).cfg = s.cfg := rfl
@[simp] theorem dropWrite_x (s : State) : (dropWrite s).x = s.x := rfl
@[simp] theorem dropWrite_buf (s : State) : (dropWrite s).buf = s.buf := rfl
@[simp] theorem dropWrite_busy (s : State) : (dropWrite s).busy = s.busy := rfl
@[simp] theorem dropWrite_done (s : State) : (dropWrite s).done = s.done := rfl
@[simp] theorem dropWrite_wign (s : State) : (dropWrite s).wign = true := rfl
@[simp] theorem dropWrite_err (s : State) : (dropWrite s).err = s.err := rfl
@[simp] theorem dropWrite_pend (s : State) : (dropWrite s).pend = s.pend := rfl
@[simp] theorem dropWrite_haz (s : State) : (dropWrite s).haz = s.haz := rfl
@[simp] theorem dropWrite_host (s : State) : (dropWrite s).host = s.host := rfl
@[simp] theorem dropWrite_turns (s : State) : (dropWrite s).turns = s.turns := rfl

/-! ### `putReg` -/

@[simp] theorem putReg_cfg (r : RegName) (v : Word) (s : State) : (putReg r v s).cfg = s.cfg := rfl
@[simp] theorem putReg_x (r : RegName) (v : Word) (s : State) : (putReg r v s).x = s.x.set r v := rfl
@[simp] theorem putReg_buf (r : RegName) (v : Word) (s : State) : (putReg r v s).buf = s.buf := rfl
@[simp] theorem putReg_busy (r : RegName) (v : Word) (s : State) : (putReg r v s).busy = s.busy := rfl
@[simp] theorem putReg_done (r : RegName) (v : Word) (s : State) : (putReg r v s).done = s.done := rfl
@[simp] theorem putReg_wign (r : RegName) (v : Word) (s : State) : (putReg r v s).wign = s.wign := rfl
@[simp] theorem putReg_err (r : RegName) (v : Word) (s : State) : (putReg r v s).err = s.err := rfl
@[simp] theorem putReg_pend (r : RegName) (v : Word) (s : State) : (putReg r v s).pend = s.pend := rfl
@[simp] theorem putReg_haz (r : RegName) (v : Word) (s : State) : (putReg r v s).haz = s.haz := rfl
@[simp] theorem putReg_host (r : RegName) (v : Word) (s : State) : (putReg r v s).host = s.host := rfl
@[simp] theorem putReg_turns (r : RegName) (v : Word) (s : State) : (putReg r v s).turns = s.turns := rfl

/-! ### `resetBlock` -/

@[simp] theorem resetBlock_cfg (s : State) : (resetBlock s).cfg = s.cfg := rfl
@[simp] theorem resetBlock_x (s : State) : (resetBlock s).x = Regs.zero := rfl
@[simp] theorem resetBlock_buf (s : State) : (resetBlock s).buf = s.buf := rfl
@[simp] theorem resetBlock_busy (s : State) : (resetBlock s).busy = false := rfl
@[simp] theorem resetBlock_done (s : State) : (resetBlock s).done = false := rfl
@[simp] theorem resetBlock_wign (s : State) : (resetBlock s).wign = false := rfl
@[simp] theorem resetBlock_err (s : State) : (resetBlock s).err = none := rfl
@[simp] theorem resetBlock_pend (s : State) : (resetBlock s).pend = 0 := rfl
@[simp] theorem resetBlock_haz (s : State) : (resetBlock s).haz = s.haz := rfl
@[simp] theorem resetBlock_host (s : State) : (resetBlock s).host = s.host := rfl
@[simp] theorem resetBlock_turns (s : State) : (resetBlock s).turns = s.turns := rfl

/-! ### `bindName` -/

@[simp] theorem bindName_cfg (n : Nat) (v : Word) (s : State) : (bindName n v s).cfg = s.cfg := rfl
@[simp] theorem bindName_x (n : Nat) (v : Word) (s : State) : (bindName n v s).x = s.x := rfl
@[simp] theorem bindName_buf (n : Nat) (v : Word) (s : State) : (bindName n v s).buf = s.buf := rfl
@[simp] theorem bindName_busy (n : Nat) (v : Word) (s : State) : (bindName n v s).busy = s.busy := rfl
@[simp] theorem bindName_done (n : Nat) (v : Word) (s : State) : (bindName n v s).done = s.done := rfl
@[simp] theorem bindName_wign (n : Nat) (v : Word) (s : State) : (bindName n v s).wign = s.wign := rfl
@[simp] theorem bindName_err (n : Nat) (v : Word) (s : State) : (bindName n v s).err = s.err := rfl
@[simp] theorem bindName_pend (n : Nat) (v : Word) (s : State) : (bindName n v s).pend = s.pend := rfl
@[simp] theorem bindName_haz (n : Nat) (v : Word) (s : State) : (bindName n v s).haz = s.haz := rfl
@[simp] theorem bindName_host (n : Nat) (v : Word) (s : State) : (bindName n v s).host = { s.host with names := (n, v) :: s.host.names.filter fun p => p.1 != n } := rfl
@[simp] theorem bindName_turns (n : Nat) (v : Word) (s : State) : (bindName n v s).turns = s.turns := rfl

/-! ### `bufWrite` -/

@[simp] theorem bufWrite_cfg (a : Nat) (v : Byte) (s : State) : (bufWrite a v s).cfg = s.cfg := rfl
@[simp] theorem bufWrite_x (a : Nat) (v : Byte) (s : State) : (bufWrite a v s).x = s.x := rfl
@[simp] theorem bufWrite_buf (a : Nat) (v : Byte) (s : State) : (bufWrite a v s).buf = s.buf.write a v := rfl
@[simp] theorem bufWrite_busy (a : Nat) (v : Byte) (s : State) : (bufWrite a v s).busy = s.busy := rfl
@[simp] theorem bufWrite_done (a : Nat) (v : Byte) (s : State) : (bufWrite a v s).done = s.done := rfl
@[simp] theorem bufWrite_wign (a : Nat) (v : Byte) (s : State) : (bufWrite a v s).wign = s.wign := rfl
@[simp] theorem bufWrite_err (a : Nat) (v : Byte) (s : State) : (bufWrite a v s).err = s.err := rfl
@[simp] theorem bufWrite_pend (a : Nat) (v : Byte) (s : State) : (bufWrite a v s).pend = s.pend := rfl
@[simp] theorem bufWrite_haz (a : Nat) (v : Byte) (s : State) : (bufWrite a v s).haz = (s.haz || inPendingReadSet s a) := rfl
@[simp] theorem bufWrite_host (a : Nat) (v : Byte) (s : State) : (bufWrite a v s).host = s.host := rfl
@[simp] theorem bufWrite_turns (a : Nat) (v : Byte) (s : State) : (bufWrite a v s).turns = s.turns := rfl

/-! ### `hostNext` -/

@[simp] theorem hostNext_cfg (s : State) : (hostNext s).cfg = s.cfg := rfl
@[simp] theorem hostNext_x (s : State) : (hostNext s).x = s.x := rfl
@[simp] theorem hostNext_buf (s : State) : (hostNext s).buf = s.buf := rfl
@[simp] theorem hostNext_busy (s : State) : (hostNext s).busy = s.busy := rfl
@[simp] theorem hostNext_done (s : State) : (hostNext s).done = s.done := rfl
@[simp] theorem hostNext_wign (s : State) : (hostNext s).wign = s.wign := rfl
@[simp] theorem hostNext_err (s : State) : (hostNext s).err = s.err := rfl
@[simp] theorem hostNext_pend (s : State) : (hostNext s).pend = s.pend := rfl
@[simp] theorem hostNext_haz (s : State) : (hostNext s).haz = s.haz := rfl
@[simp] theorem hostNext_host (s : State) : (hostNext s).host = { s.host with pc := s.host.pc + 1 } := rfl
@[simp] theorem hostNext_turns (s : State) : (hostNext s).turns = s.turns := rfl

/-! ### `dropTurn` -/

@[simp] theorem dropTurn_cfg (s : State) : (dropTurn s).cfg = s.cfg := rfl
@[simp] theorem dropTurn_x (s : State) : (dropTurn s).x = s.x := rfl
@[simp] theorem dropTurn_buf (s : State) : (dropTurn s).buf = s.buf := rfl
@[simp] theorem dropTurn_busy (s : State) : (dropTurn s).busy = s.busy := rfl
@[simp] theorem dropTurn_done (s : State) : (dropTurn s).done = s.done := rfl
@[simp] theorem dropTurn_wign (s : State) : (dropTurn s).wign = s.wign := rfl
@[simp] theorem dropTurn_err (s : State) : (dropTurn s).err = s.err := rfl
@[simp] theorem dropTurn_pend (s : State) : (dropTurn s).pend = s.pend := rfl
@[simp] theorem dropTurn_haz (s : State) : (dropTurn s).haz = s.haz := rfl
@[simp] theorem dropTurn_host (s : State) : (dropTurn s).host = s.host := rfl
@[simp] theorem dropTurn_turns (s : State) : (dropTurn s).turns = s.turns.tail := rfl

/-! ### `pendingNext` -/

@[simp] theorem pendingNext_cfg (v : Word) (s : State) : (pendingNext v s).cfg = s.cfg := rfl
@[simp] theorem pendingNext_x (v : Word) (s : State) : (pendingNext v s).x = s.x := rfl
@[simp] theorem pendingNext_buf (v : Word) (s : State) : (pendingNext v s).buf = s.buf := rfl
@[simp] theorem pendingNext_busy (v : Word) (s : State) : (pendingNext v s).busy = true := rfl
@[simp] theorem pendingNext_done (v : Word) (s : State) : (pendingNext v s).done = false := rfl
@[simp] theorem pendingNext_wign (v : Word) (s : State) : (pendingNext v s).wign = false := rfl
@[simp] theorem pendingNext_err (v : Word) (s : State) : (pendingNext v s).err = none := rfl
@[simp] theorem pendingNext_pend (v : Word) (s : State) : (pendingNext v s).pend = v := rfl
@[simp] theorem pendingNext_haz (v : Word) (s : State) : (pendingNext v s).haz = s.haz := rfl
@[simp] theorem pendingNext_host (v : Word) (s : State) : (pendingNext v s).host = s.host := rfl
@[simp] theorem pendingNext_turns (v : Word) (s : State) : (pendingNext v s).turns = .engine :: s.turns := rfl

end Sys2Proof.Machine
end

