-- ==== Sys2Proof/Laws/Steps.lean ====
section
/-! SUPPORT. What each shared operation and each kind of step can do, said once: completion, commands, accesses, one step. -/

namespace Sys2Proof.Machine

/-! ### Completion and commands -/

/-- Everything a completion can do (30_encoding.md R87). -/
theorem complete_next {r : Except ErrCode Commit} {s t : State} (h : complete r s = .next t) :
    s.haz = false ∧
      ((∃ c, r = .ok c ∧ t = completeOk { s with x := s.x.commit c }) ∨ ∃ e, r = .error e ∧ t = raiseError e s) := by
  unfold complete at h
  split at h
  · cases h
  · rename_i hz
    refine ⟨by simpa using hz, ?_⟩
    cases r with
    | ok c => exact .inl ⟨c, rfl, by cases h; rfl⟩
    | error e => exact .inr ⟨e, rfl, by cases h; rfl⟩

/-- With no hazard a completion answers a next state. -/
theorem complete_ok {s : State} (h : s.haz = false) (c : Commit) :
    complete (.ok c) s = .next (completeOk { s with x := s.x.commit c }) := by
  simp [complete, h]

theorem complete_error {s : State} (h : s.haz = false) (e : ErrCode) :
    complete (.error e) s = .next (raiseError e s) := by
  simp [complete, h]

/-- Every command is a completion, and its commit names the registers of 30_encoding.md R89. -/
theorem exec_complete (i : Instr) (s : State) :
    ∃ r, exec i s = complete r s ∧ ∀ c, r = .ok c → c.map (·.1) = writesOf i := by
  have map_ok {α : Type} (r : Except ErrCode α) (f : α → Commit) (l : List RegName)
      (hf : ∀ a, (f a).map (·.1) = l) : ∀ c, r.map f = .ok c → c.map (·.1) = l := by
    rintro c hc
    cases r with
    | error e => cases hc
    | ok a =>
      cases hc
      exact hf a
  cases i with
  | beOctets8 => exact ⟨.ok _, rfl, by rintro c ⟨⟩; rfl⟩
  | beOctets16 => exact ⟨.ok _, rfl, by rintro c ⟨⟩; rfl⟩
  | beOctets32 => exact ⟨.ok _, rfl, by rintro c ⟨⟩; rfl⟩
  | beOctets64 => exact ⟨.ok _, rfl, by rintro c ⟨⟩; rfl⟩
  | sum => exact ⟨_, rfl, map_ok _ _ _ fun _ => rfl⟩
  | finalize => exact ⟨.ok _, rfl, by rintro c ⟨⟩; rfl⟩
  | checksum => exact ⟨_, rfl, map_ok _ _ _ fun _ => rfl⟩
  | ipv4Checksum => exact ⟨_, rfl, map_ok _ _ _ fun _ => rfl⟩
  | ipv6Checksum => exact ⟨_, rfl, map_ok _ _ _ fun _ => rfl⟩
  | macFormat => exact ⟨.ok _, rfl, by rintro c ⟨⟩; rfl⟩
  | macParse =>
    refine ⟨_, rfl, ?_⟩
    split
    · rintro c ⟨⟩
    · exact map_ok _ _ _ fun _ => rfl

/-- Everything a command can do: a commit to its own registers, or an error and nothing else. -/
theorem exec_next {i : Instr} {s t : State} (h : exec i s = .next t) :
    s.haz = false ∧
      ((∃ c : Commit, c.map (·.1) = writesOf i ∧ t = completeOk { s with x := s.x.commit c }) ∨
        ∃ e, t = raiseError e s) := by
  obtain ⟨r, hr, hw⟩ := exec_complete i s
  rw [hr] at h
  obtain ⟨hz, ⟨c, hc, ht⟩ | ⟨e, -, ht⟩⟩ := complete_next h
  · exact ⟨hz, .inl ⟨c, hw c hc, ht⟩⟩
  · exact ⟨hz, .inr ⟨e, ht⟩⟩

/-- With no hazard every command completes (30_encoding.md R88). -/
theorem exec_completes (i : Instr) {s : State} (h : s.haz = false) : ∃ t, exec i s = .next t := by
  obtain ⟨r, hr, -⟩ := exec_complete i s
  cases r with
  | ok c => exact ⟨_, hr.trans (complete_ok h c)⟩
  | error e => exact ⟨_, hr.trans (complete_error h e)⟩

/-- While HAZ is 1 no command completes (70_reset_and_hazards.md R236). -/
theorem exec_hazard (i : Instr) {s : State} (h : s.haz = true) : exec i s = .fault .bufHazard := by
  obtain ⟨r, hr, -⟩ := exec_complete i s
  simp [hr, complete, h]

/-! ### Host accesses -/

/-- Everything a register write can do while BUSY is 0 (10_state.md R40). -/
theorem regWriteIdle_cases (off : BitVec 8) (v : Word) (s : State) :
    regWriteIdle off v s = s ∨ (isLegal v = true ∧ regWriteIdle off v s = issue v s)
      ∨ regWriteIdle off v s = rejectWord s ∨ ∃ r, r.access = .rw ∧ regWriteIdle off v s = putReg r v s := by
  unfold regWriteIdle
  split
  · exact .inl rfl
  · rename_i r _
    split
    · unfold cmdWrite
      split
      · rename_i hl
        exact .inr (.inl ⟨hl, rfl⟩)
      · exact .inr (.inr (.inl rfl))
    · rename_i hr
      exact .inr (.inr (.inr ⟨r, hr, rfl⟩))
    · exact .inl rfl

/-- The state with its Host and schedule replaced: the same block. -/
def moved (s : State) (h : HostAgent) (ts : List Turn) : State := { s with host := h, turns := ts }

/-- What one step does to the block: nothing, a register write, a BUF write, a reset, or a completion. `h` and `ts`
are the Host and the schedule the step leaves. -/
inductive StepEffect (s t : State) : Prop where
  | quiet (h : HostAgent) (ts : List Turn) (ht : t = moved s h ts)
  | regWrite (h : HostAgent) (ts : List Turn) (off : BitVec 8) (v : Word) (ht : t = Machine.regWrite off v (moved s h ts))
  | bufWrite (h : HostAgent) (ts : List Turn) (a : Nat) (v : Byte) (ha : a < s.cfg.bufSize)
      (ht : t = Machine.bufWrite a v (moved s h ts))
  | reset (h : HostAgent) (ts : List Turn) (ht : t = resetBlock (moved s h ts))
  | engine (i : Instr) (ts : List Turn) (hb : s.busy = true) (hd : decode s.pend = .ok i)
      (ht : exec i (moved s s.host ts) = .next t)

/-- Everything a Host access can do to the block. -/
theorem hostAccess_effect {a : HostAccess} {s t : State} {h : HostAgent} {ts : List Turn}
    (ht : hostAccess a (moved s h ts) = .next t) : StepEffect s t := by
  cases a with
  | regRead off width dst =>
    simp only [hostAccess] at ht
    split at ht
    · cases ht
      exact .quiet _ ts rfl
    · cases ht
  | regWrite off width v =>
    simp only [hostAccess] at ht
    split at ht
    · cases ht
      exact .regWrite h ts off v rfl
    · cases ht
  | bufRead addr dst =>
    simp only [hostAccess] at ht
    split at ht
    · cases ht
      exact .quiet _ ts rfl
    · cases ht
  | bufWrite addr v =>
    simp only [hostAccess] at ht
    split at ht
    · rename_i hlt
      cases ht
      exact .bufWrite h ts addr.toNat v hlt rfl
    · cases ht

/-- Everything a Host branch can do to the block. -/
theorem hostBranch_effect {c : Word → Bool} {n l : Nat} {s t : State} {ts : List Turn}
    (ht : hostBranch c n l (moved s s.host ts) = .next t) : StepEffect s t := by
  unfold hostBranch at ht
  split at ht
  · cases ht
  · split at ht
    · unfold hostGoto at ht
      split at ht
      · cases ht
        exact .quiet _ ts rfl
      · cases ht
    · cases ht
      exact .quiet _ ts rfl

/-- Everything a Host statement can do to the block. -/
theorem hostStep_effect {s t : State} {ts : List Turn} (ht : hostStep (moved s s.host ts) = .next t) :
    StepEffect s t := by
  unfold hostStep at ht
  split at ht
  · cases ht
    exact .quiet _ ts rfl
  · split at ht
    · rename_i st _
      cases st with
      | wr r v => exact hostAccess_effect (h := { s.host with pc := s.host.pc + 1 }) (ts := ts) (a := .regWrite r.offset 4 v) ht
      | rd r n => exact hostAccess_effect (h := { s.host with pc := s.host.pc + 1 }) (ts := ts) (a := .regRead r.offset 4 n) ht
      | sb addr v => exact hostAccess_effect (h := { s.host with pc := s.host.pc + 1 }) (ts := ts) (a := .bufWrite addr v) ht
      | cmd i =>
        exact hostAccess_effect (h := { s.host with pc := s.host.pc + 1 }) (ts := ts)
          (a := .regWrite RegName.cmd.offset 4 (encode i)) ht
      | label l =>
        cases ht
        exact .quiet _ ts rfl
      | bbusy n l => exact hostBranch_effect ht
      | berr n l => exact hostBranch_effect ht
      | halt =>
        cases ht
        exact .quiet _ ts rfl
    · cases ht
      exact .quiet _ ts rfl

/-- Everything one step can do to the block (00_scope.md R6). -/
theorem step_effect {s t : State} (h : step s = .next t) : StepEffect s t := by
  unfold step at h
  split at h
  · cases h
    exact .quiet s.host s.turns rfl
  · rename_i u _
    cases u with
    | engine =>
      simp only [takeTurn] at h
      split at h
      · rename_i hb
        unfold engineStep at h
        split at h
        · rename_i i hd
          exact .engine i s.turns.tail hb hd h
        · cases h
      · cases h
        exact .quiet s.host s.turns.tail rfl
    | host => exact hostStep_effect (ts := s.turns.tail) h
    | access a => exact hostAccess_effect (h := s.host) (ts := s.turns.tail) h
    | reset =>
      cases h
      exact .reset s.host s.turns.tail rfl

/-! ### The end of a run (70_reset_and_hazards.md R240) -/

/-- While HAZ is 1 there is no end state. -/
theorem endState_hazard {s : State} (h : s.haz = true) : endState s = none := by
  simp [endState, h]

/-- When there is an end state, and what it holds. -/
theorem endState_eq_some {s : State} {e : EndState} :
    endState s = some e ↔ s.host.halted = true ∧ s.busy = false ∧ s.haz = false
      ∧ e = { x := s.x, status := statusWord s, buf := s.buf, haz := false } := by
  unfold endState runEnded
  cases s.haz <;> cases s.busy <;> cases s.host.halted <;> simp
  exact ⟨Eq.symm, Eq.symm⟩

end Sys2Proof.Machine
end

