-- ==== Sys2Proof/Laws/Commands.lean ====
section
/-! SUPPORT. The shared parts of the commands, said once: descriptors, totals by case, commits, packing of octets. -/

namespace Sys2Proof.Machine

/-! ### Descriptors and totals (20_memory.md R61; 60_exceptions.md R202) -/

theorem word_eq_zero_iff (w : Word) : w = 0 ↔ w.toNat = 0 :=
  ⟨fun h => h ▸ rfl, fun h => BitVec.eq_of_toNat_eq h⟩

theorem inRange_iff (c : Config) (base len : Word) :
    inRange c base len ↔ len.toNat = 0 ∨ base.toNat + len.toNat ≤ c.bufSize := by
  simp only [inRange, word_eq_zero_iff]

theorem fitAcc_ok {t : Nat} (h : t ≤ 0xFFFFFFFF) : fitAcc t = .ok t := if_neg (Nat.not_lt.2 h)

theorem fitAcc_overflow {t : Nat} (h : 0xFFFFFFFF < t) : fitAcc t = .error .overflow := if_pos h

theorem dataTotal_bufRange {s : State} (seed : Nat) (h : ¬ dataInRange s) : dataTotal seed s = .error .bufRange :=
  if_pos h

theorem dataTotal_skipRange {s : State} (seed : Nat) (h : dataInRange s) (hk : s.x.dataLen.toNat / 2 < s.x.skip.toNat) :
    dataTotal seed s = .error .skipRange :=
  (if_neg (not_not.2 h)).trans (if_pos hk)

theorem dataTotal_fit {s : State} (seed : Nat) (h : dataInRange s) (hk : s.x.skip.toNat ≤ s.x.dataLen.toNat / 2) :
    dataTotal seed s = fitAcc (seed + sumBeWords (dataBytes s) s.x.skip.toNat) :=
  (if_neg (not_not.2 h)).trans (if_neg (Nat.not_lt.2 hk))

/-- Every outcome of the data checks. -/
theorem dataTotal_cases (seed : Nat) (s : State) :
    dataTotal seed s = .error .bufRange ∨ dataTotal seed s = .error .skipRange
      ∨ (dataInRange s ∧ s.x.skip.toNat ≤ s.x.dataLen.toNat / 2
        ∧ dataTotal seed s = fitAcc (seed + sumBeWords (dataBytes s) s.x.skip.toNat)) := by
  by_cases h : dataInRange s
  · by_cases hk : s.x.dataLen.toNat / 2 < s.x.skip.toNat
    · exact .inr (.inl (dataTotal_skipRange seed h hk))
    · exact .inr (.inr ⟨h, by omega, dataTotal_fit seed h (by omega)⟩)
  · exact .inl (dataTotal_bufRange seed h)

theorem pseudoTotal_bufRange {s : State} (p : Nat) (h : ¬ (dataInRange s ∧ extraInRange s)) :
    pseudoTotal p s = .error .bufRange := by
  unfold pseudoTotal
  split
  · rfl
  · rename_i hd
    exact if_pos fun he => h ⟨not_not.1 hd, he⟩

theorem pseudoTotal_skipRange {s : State} (p : Nat) (h : dataInRange s) (he : extraInRange s)
    (hk : s.x.dataLen.toNat / 2 < s.x.skip.toNat) : pseudoTotal p s = .error .skipRange :=
  (if_neg (not_not.2 h)).trans ((if_neg (not_not.2 he)).trans (if_pos hk))

theorem pseudoTotal_fit {s : State} (p : Nat) (h : dataInRange s) (he : extraInRange s)
    (hk : s.x.skip.toNat ≤ s.x.dataLen.toNat / 2) : pseudoTotal p s = fitAcc (p + bodySum s) :=
  (if_neg (not_not.2 h)).trans ((if_neg (not_not.2 he)).trans (if_neg (Nat.not_lt.2 hk)))

/-- Every outcome of the pseudo-header checks. -/
theorem pseudoTotal_cases (p : Nat) (s : State) :
    pseudoTotal p s = .error .bufRange ∨ pseudoTotal p s = .error .skipRange
      ∨ (dataInRange s ∧ extraInRange s ∧ s.x.skip.toNat ≤ s.x.dataLen.toNat / 2
        ∧ pseudoTotal p s = fitAcc (p + bodySum s)) := by
  by_cases h : dataInRange s ∧ extraInRange s
  · by_cases hk : s.x.dataLen.toNat / 2 < s.x.skip.toNat
    · exact .inr (.inl (pseudoTotal_skipRange p h.1 h.2 hk))
    · exact .inr (.inr ⟨h.1, h.2, by omega, pseudoTotal_fit p h.1 h.2 (by omega)⟩)
  · exact .inl (pseudoTotal_bufRange p h)

/-- The two words of an address register, as numbers. -/
theorem addrWords_eq (v : Word) : addrWords v = v.toNat / 65536 + v.toNat % 65536 := by
  have := v.isLt
  simp [addrWords, hi16, lo16, BitVec.extractLsb_toNat, Nat.shiftRight_eq_div_pow]
  omega

/-! ### Commits -/

theorem extractLsb_setWidth_half (v : BitVec 16) : (v.setWidth 32).extractLsb 15 0 = v := by
  apply BitVec.eq_of_toNat_eq
  simp [BitVec.extractLsb_toNat]
  omega

/-- What the checksum commands store (42_checksum.md R124). -/
theorem commit_checksumCommit (x : Regs) (t : Nat) :
    x.commit (checksumCommit t) = { x with acc := BitVec.ofNat 32 t, result := finalizeSum t } := by
  simp only [checksumCommit, Regs.commit, List.foldl, Regs.set, extractLsb_setWidth_half]

theorem finalizeSum_eq (x : Nat) : finalizeSum x = BitVec.ofNat 16 (0xFFFF - fold16 x) := by
  apply BitVec.eq_of_toNat_eq
  rw [finalizeSum_toNat]
  simp
  omega

/-! ### Packing (10_state.md R38) -/

/-- The number in a register that holds four bytes. -/
theorem octets_toNat (a b c d : Byte) :
    (a ++ b ++ c ++ d).toNat = a.toNat * 2 ^ 24 + b.toNat * 2 ^ 16 + c.toNat * 2 ^ 8 + d.toNat := by
  simp only [BitVec.toNat_append]
  rw [← Nat.shiftLeft_add_eq_or_of_lt d.isLt, ← Nat.shiftLeft_add_eq_or_of_lt c.isLt,
    ← Nat.shiftLeft_add_eq_or_of_lt b.isLt]
  simp [Nat.shiftLeft_eq]
  omega

/-- The octets of four packed bytes are those bytes. -/
theorem octetsOf_append (a b c d : Byte) : octetsOf (a ++ b ++ c ++ d) = [a, b, c, d] := by
  have h := octets_toNat a b c d
  have ha := a.isLt
  have hb := b.isLt
  have hc := c.isLt
  have hd := d.isLt
  simp only [octetsOf, List.cons.injEq, and_true]
  refine ⟨?_, ?_, ?_, ?_⟩ <;> apply BitVec.eq_of_toNat_eq <;>
    simp only [BitVec.extractLsb_toNat, Nat.shiftRight_eq_div_pow, h] <;> omega

/-- The octets of register `j` of a byte sequence (10_state.md R38). -/
theorem octetsOf_packAt (l : List Byte) (j : Nat) :
    octetsOf (packAt l j) = [l.getD (4 * j) 0, l.getD (4 * j + 1) 0, l.getD (4 * j + 2) 0, l.getD (4 * j + 3) 0] :=
  octetsOf_append _ _ _ _

theorem packAt_toNat (l : List Byte) (j : Nat) :
    (packAt l j).toNat = (l.getD (4 * j) 0).toNat * 2 ^ 24 + (l.getD (4 * j + 1) 0).toNat * 2 ^ 16
      + (l.getD (4 * j + 2) 0).toNat * 2 ^ 8 + (l.getD (4 * j + 3) 0).toNat :=
  octets_toNat _ _ _ _

end Sys2Proof.Machine
end

