-- ==== Sys2Proof/Laws/HwAddr.lean ====
section
/-! SUPPORT. Hex digits both ways, the cut at colons, the octets of the address registers (44_hwaddr.md). -/

namespace Sys2Proof.Machine

/-- A hex digit has a value, and only a hex digit has one (44_hwaddr.md R167). -/
theorem hexval_isSome (b : Byte) : (hexval b).isSome = true ↔
    (0x30 ≤ b.toNat ∧ b.toNat ≤ 0x39) ∨ (0x41 ≤ b.toNat ∧ b.toNat ≤ 0x46) ∨ (0x61 ≤ b.toNat ∧ b.toNat ≤ 0x66) := by
  unfold hexval
  repeat' split
  all_goals simp; try omega

theorem hexval_lt {b : Byte} {x : Nat} (h : hexval b = some x) : x < 16 := by
  unfold hexval at h
  repeat' split at h
  all_goals first | (cases h; done) | skip
  all_goals
    simp only [Option.some.injEq] at h
    omega

/-- An output digit is an input digit of the same value. -/
theorem hexval_hexl (v : BitVec 4) : hexval (hexl v) = some v.toNat := by
  revert v
  decide

theorem hexl_ne_colon (v : BitVec 4) : hexl v ≠ colon := by
  revert v
  decide

theorem hexl_toNat (v : BitVec 4) : (hexl v).toNat = if v.toNat ≤ 9 then 0x30 + v.toNat else 0x61 + (v.toNat - 10) := by
  revert v
  decide

/-- The two output digits of an octet are a component with that octet's value. -/
theorem componentValue_hexPair (m : Byte) : componentValue (hexPair m) = some m := by
  simp only [hexPair, componentValue, hexval_hexl]
  congr 1
  apply BitVec.eq_of_toNat_eq
  have := m.isLt
  simp [Nat.shiftRight_eq_div_pow]
  omega

theorem splitColons_ne_nil (t : List Byte) : splitColons t ≠ [] := by
  cases t with
  | nil => simp [splitColons]
  | cons b t =>
    simp only [splitColons]
    split
    · simp
    · split <;> simp

theorem splitColons_hexPair (m : Byte) : splitColons (hexPair m) = [hexPair m] := by
  simp [hexPair, splitColons, hexl_ne_colon]

theorem splitColons_hexPair_colon (m : Byte) (t : List Byte) :
    splitColons (hexPair m ++ colon :: t) = hexPair m :: splitColons t := by
  simp [hexPair, splitColons, hexl_ne_colon]

/-- The six octets, from the stored bits of MAC_HI and MAC_LO (10_state.md R33). -/
theorem macOctets_eq (x : Regs) :
    macOctets x = [x.macHi.extractLsb 31 24, x.macHi.extractLsb 23 16, x.macHi.extractLsb 15 8, x.macHi.extractLsb 7 0,
      x.macLo.extractLsb 15 8, x.macLo.extractLsb 7 0] := by
  have h : (x.get .macLo).toNat = x.macLo.toNat * 65536 := by
    show (x.macLo ++ (0 : BitVec 16)).toNat = _
    rw [BitVec.toNat_append]
    simp [Nat.shiftLeft_eq]
  have := x.macLo.isLt
  simp only [macOctets, octetsOf, List.cons_append, List.nil_append, List.take, List.cons.injEq, true_and, and_true]
  constructor <;> apply BitVec.eq_of_toNat_eq <;>
    simp only [BitVec.extractLsb_toNat, h, Nat.shiftRight_eq_div_pow] <;> omega

/-- The 16 stored bits of MAC_LO from four packed bytes: the first two (44_hwaddr.md R172). -/
theorem append_highHalf (a b c d : Byte) : (a ++ b ++ c ++ d).extractLsb 31 16 = a ++ b := by
  have h := octets_toNat a b c d
  have h2 : (a ++ b).toNat = a.toNat * 256 + b.toNat := by
    rw [BitVec.toNat_append, ← Nat.shiftLeft_add_eq_or_of_lt b.isLt, Nat.shiftLeft_eq]
  have := a.isLt
  have := b.isLt
  have := c.isLt
  have := d.isLt
  apply BitVec.eq_of_toNat_eq
  simp only [BitVec.extractLsb_toNat, h, Nat.shiftRight_eq_div_pow]
  refine Eq.trans ?_ h2.symm
  omega

end Sys2Proof.Machine
end

