-- ==== Sys2Proof/Laws/PerInstr.lean ====
section
/-! SUPPORT. One lemma per command: its word, written by the encoder, decodes to it (30_encoding.md R80-R83, R90). -/

namespace Sys2Proof.Laws.EncodedWord

/-- A well-formed command's word is a legal word that decodes to it, and its fields are well formed. -/
def Statement (i : Instr) : Prop :=
  i.wellFormed = true → decode (encode i) = .ok i ∧ (CmdFields.ofWord (encode i)).wellFormed = true

theorem beOctets8 : Statement .beOctets8 := fun _ => by decide
theorem beOctets16 : Statement .beOctets16 := fun _ => by decide
theorem beOctets32 : Statement .beOctets32 := fun _ => by decide
theorem beOctets64 : Statement .beOctets64 := fun _ => by decide
theorem sum : Statement .sum := fun _ => by decide
theorem finalize : Statement .finalize := fun _ => by decide
theorem checksum : Statement .checksum := fun _ => by decide
theorem ipv4Checksum : Statement .ipv4Checksum := fun _ => by decide
theorem ipv6Checksum : Statement .ipv6Checksum := fun _ => by decide
theorem macFormat : Statement .macFormat := fun _ => by decide
theorem macParse : Statement .macParse := fun _ => by decide

end Sys2Proof.Laws.EncodedWord
end

