-- ==== Sys2Proof/Laws/Sums.lean ====
section
/-! SUPPORT. Word sums: bounds, a replaced word, a concatenation (42_checksum.md R110, R111; 43_pseudo_header.md R150). -/

namespace Sys2Proof.Machine

/-! ### Sums over the indices of a list -/

theorem sum_range_congr {n : Nat} {f g : Nat → Nat} (h : ∀ i < n, f i = g i) :
    ((List.range n).map f).sum = ((List.range n).map g).sum := by
  have : (List.range n).map f = (List.range n).map g := by simpa [List.map_inj_left] using h
  rw [this]

theorem sum_range_succ (n : Nat) (f : Nat → Nat) :
    ((List.range (n + 1)).map f).sum = ((List.range n).map f).sum + f n := by
  simp [List.range_succ]

/-- Giving one index a value adds that value to the sum that leaves the index out. -/
theorem sum_range_replace {n k : Nat} (f : Nat → Nat) (c : Nat) (hk : k < n) :
    ((List.range n).map fun i => if i = k then c else f i).sum
      = ((List.range n).map fun i => if i = k then 0 else f i).sum + c := by
  induction n with
  | zero => omega
  | succ n ih =>
    rw [sum_range_succ, sum_range_succ]
    by_cases h : k < n
    · rw [ih h, if_neg (by omega), if_neg (by omega)]
      omega
    · obtain rfl : n = k := by omega
      have := sum_range_congr (n := n) (f := fun i => if i = n then c else f i) (g := fun i => if i = n then 0 else f i)
        fun i hi => by rw [if_neg (by omega), if_neg (by omega)]
      simp only [if_true]
      omega

/-! ### Words and half-words -/

theorem wordOf_le (d : List Byte) (i : Nat) : wordOf d i ≤ 0xFFFF := by
  unfold wordOf
  have := (d.getD (2 * i) 0).isLt
  have := (d.getD (2 * i + 1) 0).isLt
  omega

theorem halfOf_le (d : List Byte) : halfOf d ≤ d.length % 2 * 0xFF00 := by
  unfold halfOf
  have := (d.getD (d.length - 1) 0).isLt
  split <;> omega

theorem halfOf_even {d : List Byte} (h : d.length % 2 = 0) : halfOf d = 0 := if_neg (by omega)

@[simp] theorem putWordAt_length (d : List Byte) (k : Nat) (c : BitVec 16) : (putWordAt d k c).length = d.length := by
  simp [putWordAt]

/-- The words of a buffer with one word replaced (20_memory.md R62, R64). -/
theorem wordOf_putWordAt {d : List Byte} {k : Nat} (c : BitVec 16) (i : Nat) (hk : k < d.length / 2) :
    wordOf (putWordAt d k c) i = if i = k then c.toNat else wordOf d i := by
  unfold wordOf putWordAt
  by_cases h : i = k
  · subst h
    have := c.isLt
    simp [List.getD, show 2 * i < d.length by omega, show 2 * i + 1 < d.length by omega, Nat.shiftRight_eq_div_pow]
    omega
  · simp [List.getD, h, show 2 * k ≠ 2 * i by omega, show 2 * k + 1 ≠ 2 * i by omega,
      show 2 * k ≠ 2 * i + 1 by omega]

theorem halfOf_putWordAt {d : List Byte} {k : Nat} (c : BitVec 16) (hk : k < d.length / 2) :
    halfOf (putWordAt d k c) = halfOf d := by
  unfold halfOf
  rw [putWordAt_length]
  split
  · simp [putWordAt, List.getD, show 2 * k ≠ d.length - 1 by omega, show 2 * k + 1 ≠ d.length - 1 by omega]
  · rfl

/-- A replaced word adds its value to the sum that skips it. -/
theorem sumBeWords_putWordAt {d : List Byte} {k : Nat} (c : BitVec 16) (hk : k < d.length / 2) :
    sumBeWords (putWordAt d k c) (d.length / 2) = sumBeWords d k + c.toNat := by
  unfold sumBeWords
  rw [halfOf_putWordAt c hk, putWordAt_length]
  have h1 := sum_range_replace (wordOf d) c.toNat (show k < wordCount d.length from hk)
  have h2 := sum_range_congr (n := wordCount d.length)
    (f := fun i => if i = d.length / 2 then 0 else wordOf (putWordAt d k c) i)
    (g := fun i => if i = k then c.toNat else wordOf d i) fun i hi => by
      simp only [wordCount] at hi
      rw [if_neg (by omega), wordOf_putWordAt c i hk]
  omega

/-! ### Concatenation -/

theorem getD_append_low (d e : List Byte) {i : Nat} (h : i < d.length) : (d ++ e).getD i 0 = d.getD i 0 := by
  simp [List.getD, List.getElem?_append_left h]

theorem getD_append_high (d e : List Byte) (i : Nat) : (d ++ e).getD (d.length + i) 0 = e.getD i 0 := by
  simp [List.getD, List.getElem?_append_right]

/-- The sum over a concatenation whose first part has an even length, with any skip index. -/
theorem sumBeWords_append {d : List Byte} (e : List Byte) (k : Nat) (h : d.length % 2 = 0) :
    sumBeWords (d ++ e) k
      = ((List.range (d.length / 2)).map fun i => if i = k then 0 else wordOf d i).sum
        + (((List.range (e.length / 2)).map fun i => if d.length / 2 + i = k then 0 else wordOf e i).sum + halfOf e) := by
  unfold sumBeWords
  have hw : wordCount (d ++ e).length = d.length / 2 + e.length / 2 := by
    simp [wordCount]
    omega
  have hh : halfOf (d ++ e) = halfOf e := by
    unfold halfOf
    simp only [List.length_append]
    by_cases he : e.length % 2 = 1
    · rw [if_pos (by omega), if_pos he, show d.length + e.length - 1 = d.length + (e.length - 1) by omega,
        getD_append_high]
    · rw [if_neg (by omega), if_neg he]
  rw [hw, hh, List.range_add]
  simp only [List.map_append, List.sum_append, List.map_map]
  have e1 := sum_range_congr (n := d.length / 2) (f := fun i => if i = k then 0 else wordOf (d ++ e) i)
    (g := fun i => if i = k then 0 else wordOf d i) fun i hi => by
      have : wordOf (d ++ e) i = wordOf d i := by
        unfold wordOf
        rw [getD_append_low _ _ (by omega), getD_append_low _ _ (by omega)]
      simp only [this]
  have e2 := sum_range_congr (n := e.length / 2)
    (f := (fun i => if i = k then 0 else wordOf (d ++ e) i) ∘ fun i => d.length / 2 + i)
    (g := fun i => if d.length / 2 + i = k then 0 else wordOf e i) fun i _ => by
      have : wordOf (d ++ e) (d.length / 2 + i) = wordOf e i := by
        unfold wordOf
        rw [show 2 * (d.length / 2 + i) = d.length + 2 * i by omega,
          show d.length + 2 * i + 1 = d.length + (2 * i + 1) by omega, getD_append_high, getD_append_high]
      simp only [Function.comp, this]
  rw [e1, e2, Nat.add_assoc]

end Sys2Proof.Machine
end

