-- ==== Sys2Proof/Tests/Slice0.lean ====
section
/-! SUPPORT. The model's own tests, and a witness for the hypotheses of every statement. Expected values come from the
spec: 30_encoding.md R83 and 95_test_vectors.md. -/

namespace Sys2Proof.Tests

open Sys2Proof Sys2Proof.Machine

/-! ### Helpers -/

/-- BUF bytes written from `base` upwards. -/
def mem (base : Nat) (l : List Byte) : Memory := l.zipIdx.map fun p => (base + p.2, p.1)

/-- A block with `BUF_SIZE = 0x1000` (95_test_vectors.md, conventions), given registers and BUF. -/
def bench (x : Regs) (m : Memory) : State := { State.reset with x := x, buf := m }

/-- One observation of the next state of a step. -/
def obs {α : Type} (f : State → α) : Result → Option α
  | .next s => some (f s)
  | .fault _ => none
  | .refused _ => none

/-- STATUS and one register after a step. -/
def statusAnd (r : RegName) : Result → Option (Word × Word) := obs fun s => (readReg s .status, readReg s r)

/-! ### Decoding: words written out from 30_encoding.md R80-R83 -/

theorem test_decode_beOctets8 : decode 0b0000000000000000000000_00_00000001 = .ok .beOctets8 := by decide
theorem test_decode_beOctets16 : decode 0b0000000000000000000000_01_00000001 = .ok .beOctets16 := by decide
theorem test_decode_beOctets32 : decode 0b0000000000000000000000_10_00000001 = .ok .beOctets32 := by decide
theorem test_decode_beOctets64 : decode 0b0000000000000000000000_11_00000001 = .ok .beOctets64 := by decide
theorem test_decode_sum : decode 0b0000000000000000000000_00_00000010 = .ok .sum := by decide
theorem test_decode_finalize : decode 0b0000000000000000000000_00_00000011 = .ok .finalize := by decide
theorem test_decode_checksum : decode 0b0000000000000000000000_00_00000100 = .ok .checksum := by decide
theorem test_decode_ipv4Checksum : decode 0b0000000000000000000000_00_00000101 = .ok .ipv4Checksum := by decide
theorem test_decode_ipv6Checksum : decode 0b0000000000000000000000_00_00000110 = .ok .ipv6Checksum := by decide
theorem test_decode_macFormat : decode 0b0000000000000000000000_00_00000111 = .ok .macFormat := by decide
theorem test_decode_macParse : decode 0b0000000000000000000000_00_00001000 = .ok .macParse := by decide

/-- The illegal rows of 95_test_vectors.md §2.1. -/
theorem test_decode_illegal :
    [0x00000000, 0x00000009, 0x000000FF].map decode = List.replicate 3 (.error .opcode)
      ∧ decode 0x00000102 = .error .widthSelector
      ∧ [0x00000401, 0x00000C01, 0x00000400, 0x80000004].map decode = List.replicate 4 (.error .reservedBits) := by
  decide

/-- 95_test_vectors.md §2.1, the note on disassembly. -/
theorem test_disassemble : disassemble 0x80000004 = ".illegal 0x80000004" ∧ disassemble 0x101 = "BE_OCTETS.16" := by
  decide

theorem test_decodeTableWord : decodeTableWord 32 0x301 = some .beOctets64 ∧ decodeTableWord 8 8 = some .macParse := by
  decide

/-! ### Well-formedness: each check refuses an ill-formed term -/

theorem test_wellFormed_reserved : CmdFields.wellFormed ⟨1, 0, 1⟩ = false := by decide
theorem test_wellFormed_opcode_zero : CmdFields.wellFormed ⟨0, 0, 0⟩ = false := by decide
theorem test_wellFormed_opcode_nine : CmdFields.wellFormed ⟨0, 0, 9⟩ = false := by decide
theorem test_wellFormed_selector : CmdFields.wellFormed ⟨0, 1, 2⟩ = false := by decide
theorem test_wellFormed_legal : CmdFields.wellFormed ⟨0, 3, 1⟩ = true := by decide
theorem test_wellFormed_access_width : (HostAccess.regRead 0x04 2 0).wellFormed = false := by decide
theorem test_wellFormed_access_aligned : (HostAccess.regWrite 0x06 4 0).wellFormed = false := by decide
theorem test_wellFormed_label_twice : programWellFormed [.label 1, .label 1, .halt] = false := by decide
theorem test_wellFormed_label_missing : programWellFormed [.rd .status 0, .bbusy 0 7, .halt] = false := by decide
theorem test_wellFormed_name_missing : programWellFormed [.label 1, .berr 0 1, .halt] = false := by decide
theorem test_wellFormed_no_halt : programWellFormed [.cmd .sum] = false := by decide
theorem test_wellFormed_program : programWellFormed (assemble [.run .checksum 0, .stmt .halt]) = true := by decide

/-! ### BE_OCTETS (95_test_vectors.md §2.2) -/

def octBench : State := bench { Regs.zero with octInHi := 0x01234567, octInLo := 0x89ABCDEF } []

theorem test_beOctets8 : statusAnd .octOutHi (execBeOctets8 octBench) = some (2, 0xEF000000) := by decide
theorem test_beOctets16 : statusAnd .octOutHi (execBeOctets16 octBench) = some (2, 0xCDEF0000) := by decide
theorem test_beOctets32 : statusAnd .octOutHi (execBeOctets32 octBench) = some (2, 0x89ABCDEF) := by decide
theorem test_beOctets64_lo : statusAnd .octOutLo (execBeOctets64 octBench) = some (2, 0x89ABCDEF) := by decide
theorem test_beOctets64_hi : statusAnd .octOutHi (execBeOctets64 octBench) = some (2, 0x01234567) := by decide

/-! ### SUM, FINALIZE, CHECKSUM (95_test_vectors.md S1, S2, §2.3, §2.5) -/

def sumBench (acc base len skip : Word) (m : Memory) : State :=
  bench { Regs.zero with acc := acc, dataBase := base, dataLen := len, skip := skip } m

theorem test_sum_skips_word : statusAnd .acc (execSum (sumBench 0 0x10 3 0 (mem 0x10 [0x12, 0x34, 0x56]))) = some (2, 0x5600) := by
  decide
theorem test_sum_errors :
    statusAnd .acc (execSum (sumBench 7 0xFFF 2 9 [])) = some (0x22, 7)
      ∧ statusAnd .acc (execSum (sumBench 0xFFFFFFFF 0x10 2 1 (mem 0x10 [0x00, 0x01]))) = some (0x42, 0xFFFFFFFF) := by
  decide
theorem test_finalize_two_folds : statusAnd .result (execFinalize (sumBench 0x1FFFF 0 0 0 [])) = some (2, 0xFFFE) := by
  decide
theorem test_finalize_all_ones : statusAnd .result (execFinalize (sumBench 0xFFFFFFFF 0 0 0 [])) = some (2, 0) := by
  decide
theorem test_checksum_odd :
    statusAnd .result (execChecksum (sumBench 0x55 0x11 11 1
      (mem 0x11 [0x08, 0, 0, 0, 0x12, 0x34, 0, 1, 0x68, 0x69, 0x21]))) = some (2, 0x5C61) := by
  decide
theorem test_checksum_skip_range :
    statusAnd .acc (execChecksum (sumBench 0x55 0 3 2 (mem 0 [1, 2, 3]))) = some (0x32, 0x55) := by
  decide

/-! ### IPV4_CHECKSUM, IPV6_CHECKSUM (95_test_vectors.md S8, S9, S10, §2.6) -/

def packetMem : Memory := mem 0x200 [0x04, 0xD2, 0x16, 0x2E, 0x00, 0x0C, 0xAA, 0xBB] ++ mem 0x300 [0x61, 0x62, 0x63, 0x64]

def packetRegs : Regs :=
  { Regs.zero with dataBase := 0x200, dataLen := 8, skip := 3, extraBase := 0x300, extraLen := 4, proto := 0x11 }

def v4Bench : State := bench { packetRegs with src0 := 0xC0A80001, dst0 := 0xC0A800C7, src1 := 0xFFFFFFFF } packetMem

def v6Bench : State :=
  bench { packetRegs with src0 := 0x20010DB8, src3 := 1, dst0 := 0x20010DB8, dst3 := 2 } packetMem

theorem test_ipv4 : obs (fun s => (s.x.acc, s.x.result)) (execIpv4Checksum v4Bench) = some (0x26207, 0x9DF6) := by decide
theorem test_ipv4_extra_range :
    statusAnd .acc (execIpv4Checksum { v4Bench with x := { v4Bench.x with extraBase := 0xFFE, skip := 9 } }) = some (0x22, 0) := by
  decide
theorem test_ipv6 : obs (fun s => (s.x.acc, s.x.result)) (execIpv6Checksum v6Bench) = some (0x13B64, 0xC49A) := by decide
theorem test_ipv6_bad_skip :
    statusAnd .acc (execIpv6Checksum { v6Bench with x := { v6Bench.x with skip := 5 } }) = some (0x32, 0) := by
  decide

/-! ### MAC_FORMAT, MAC_PARSE (95_test_vectors.md §2.8, §2.9) -/

theorem test_macFormat :
    obs (fun s => [s.x.fmt0, s.x.fmt1, s.x.fmt2, s.x.fmt3, s.x.fmt4])
        (execMacFormat (bench { Regs.zero with macHi := 0x000AFF10, macLo := 0xC001 } []))
      = some [0x30303A30, 0x613A6666, 0x3A31303A, 0x63303A30, 0x31000000] := by
  decide

def textBench (t : List Byte) : State :=
  bench { Regs.zero with macHi := 0x11111111, macLo := 0x2222, textBase := 0x400, textLen := BitVec.ofNat 32 t.length }
    (mem 0x400 t)

/-- `0:a:F:10:c0:1` -/
theorem test_macParse :
    obs (fun s => (s.x.macHi, readReg s .macLo))
        (execMacParse (textBench [0x30, 0x3A, 0x61, 0x3A, 0x46, 0x3A, 0x31, 0x30, 0x3A, 0x63, 0x30, 0x3A, 0x31]))
      = some (0x000A0F10, 0xC0010000) := by
  decide

/-- `1:2:3:4:5:6:` is too many (the empty 7th component is never checked); `1:2:3:4:5:` is invalid. -/
theorem test_macParse_errors :
    statusAnd .macHi (execMacParse (textBench [0x31, 0x3A, 0x32, 0x3A, 0x33, 0x3A, 0x34, 0x3A, 0x35, 0x3A, 0x36, 0x3A]))
        = some (0x52, 0x11111111)
      ∧ statusAnd .macHi (execMacParse (textBench [0x31, 0x3A, 0x32, 0x3A, 0x33, 0x3A, 0x34, 0x3A, 0x35, 0x3A]))
        = some (0x72, 0x11111111) := by
  decide

/-! ### Host accesses, busy, hazard, reset (95_test_vectors.md §2.10) -/

def access (s : State) (a : HostAccess) : Result := hostAccess a s

/-- T2: a write while BUSY is dropped and sets WIGN. -/
theorem test_busy_write :
    statusAnd .skip (access (issue 4 State.reset) (.regWrite 0x18 4 9)) = some (5, 0) := by decide

/-- T10: a write to a read-only register, to an unmapped offset. -/
theorem test_read_only :
    obs id (access State.reset (.regWrite 0x0C 4 1)) = some State.reset
      ∧ obs id (access State.reset (.regWrite 0x7C 4 1)) = some State.reset := by decide

/-- T11: reserved bits are dropped. -/
theorem test_reserved_bits : statusAnd .macLo (access State.reset (.regWrite 0x4C 4 0xAABBCCDD)) = some (0, 0xAABB0000) := by
  decide

/-- An illegal word completes at once (§2.1). -/
theorem test_illegal_word : statusAnd .acc (access State.reset (.regWrite 0x00 4 9)) = some (0x12, 0) := by decide

/-- T8 and T9: only a write into the read set is a hazard. -/
theorem test_hazard :
    obs (·.haz) (access (issue 4 (sumBench 0 0 4 2 [])) (.bufWrite 0x10 0xEE)) = some false
      ∧ obs (·.haz) (access (issue 4 (sumBench 0 0 4 2 [])) (.bufWrite 0x02 0xEE)) = some true := by decide

/-- T7: reset abandons the command. -/
theorem test_reset_abandons :
    statusAnd .acc (step { issue 2 (sumBench 0x1234 0 0 0 []) with turns := [.reset] }) = some (0, 0) := by decide

theorem test_misaligned_refused : access State.reset (.regRead 0x05 4 0) = .refused .registerAccess := by rfl

theorem test_buf_end : access State.reset (.bufWrite 0x1000 0) = .fault .bufAddress := by rfl

/-! ### The Host program -/

/-- A Host that has issued CHECKSUM polls; the branch on the BUSY bit goes back to the label. -/
theorem test_poll_branches :
    obs (·.host.pc) (step { bench Regs.zero [] with
      host := { prog := assemble [.poll 0], pc := 2, names := [(0, 1)], halted := false } }) = some 0 := by decide

/-- A placed command is what the next step runs. -/
theorem test_withFetchWord : obs (·.x.result) (step (State.reset.withFetchWord 32 4)) = some 0xFFFF := by decide

/-! ### Witnesses: for every statement with hypotheses, a state and operands that meet all of them together -/

/-- A next state with a property, from an observation. -/
theorem next_of_obs {p : State → Bool} {r : Result} (h : obs p r = some true) : ∃ t, r = .next t ∧ p t = true := by
  cases r with
  | next t => exact ⟨t, rfl, by simpa [obs] using h⟩
  | fault f => simp [obs] at h
  | refused f => simp [obs] at h

/-- The bench with a command in flight, nothing scheduled. -/
def inFlight (i : Instr) (x : Regs) (m : Memory) : State := issue (encode i) (bench x m)

theorem inFlight_inv : (inFlight .checksum Regs.zero []).Inv :=
  ⟨by decide, by decide, by decide, by decide, by decide⟩

theorem witness_IllegalWordCompletesAtOnce :
    State.reset.busy = false ∧ (9 : Word) ∉ [0x001, 0x101, 0x201, 0x301, 0x2, 0x3, 0x4, 0x5, 0x6, 0x7, (0x8 : Word)] := by
  decide

theorem witness_LegalWordIsIssued : State.reset.busy = false ∧ (inFlight .sum Regs.zero []).busy = true := by decide

theorem witness_StepRunsDecodedCommand_scheduled :
    let s := { inFlight .sum Regs.zero [] with turns := [.engine, .reset] }
    s.busy = true ∧ decode s.pend = .ok .sum ∧ s.turns = .engine :: [.reset] := by decide

theorem witness_StepRunsDecodedCommand_default :
    let s := inFlight .macParse Regs.zero []
    s.busy = true ∧ decode s.pend = .ok .macParse ∧ s.turns = [] := by decide

theorem witness_EngineStepCompletesCommand :
    let s := inFlight .checksum Regs.zero []
    s.Inv ∧ s.busy = true ∧ s.haz = false ∧ nextTurn s = some .engine :=
  ⟨inFlight_inv, by decide, by decide, by decide⟩

theorem witness_StepKeepsInvariant :
    let s := inFlight .checksum Regs.zero []
    s.Inv ∧ ∃ t, step s = .next t :=
  ⟨inFlight_inv, (next_of_obs (p := fun _ => true) (by decide)).imp fun _ h => h.1⟩

theorem witness_HazardMarkIsNeverCleared :
    let s := { State.reset with haz := true, turns := [.reset] }
    s.haz = true ∧ ∃ t, step s = .next t := ⟨rfl, _, rfl⟩

theorem witness_BufChangesOnlyByHostWrites_access :
    let s := { bench Regs.zero [(5, 1)] with turns := [.access (.bufWrite 5 2)] }
    ∃ t, step s = .next t ∧ t.buf.byteAt 5 ≠ s.buf.byteAt 5 := ⟨_, rfl, by decide⟩

theorem witness_BufChangesOnlyByHostWrites_statement :
    let s := { bench Regs.zero [(5, 1)] with host := { HostAgent.idle with prog := [.sb 5 2, .halt] } }
    ∃ t, step s = .next t ∧ t.buf.byteAt 5 ≠ s.buf.byteAt 5 := ⟨_, rfl, by decide⟩

theorem witness_BusyEndsByCompletionOrReset_engine :
    let s := inFlight .finalize Regs.zero []
    ∃ t, step s = .next t ∧ s.busy = true ∧ t.busy = false :=
  (next_of_obs (p := fun t => !t.busy) (by decide)).imp fun _ h => ⟨h.1, rfl, by simpa using h.2⟩

theorem witness_BusyEndsByCompletionOrReset_reset :
    let s := { inFlight .finalize Regs.zero [] with turns := [.reset] }
    ∃ t, step s = .next t ∧ s.busy = true ∧ t.busy = false := ⟨_, rfl, rfl, rfl⟩

theorem witness_RegistersAreFrozenWhileBusy :
    let s := { inFlight .sum Regs.zero [] with turns := [.access (.regWrite 0x08 4 1)] }
    (∃ t, step s = .next t) ∧ s.busy = true ∧ nextTurn s ≠ some .engine ∧ nextTurn s ≠ some .reset :=
  ⟨(next_of_obs (p := fun _ => true) (by decide)).imp fun _ h => h.1, by decide, by decide, by decide⟩

/-- The BUF write at address 4 is the first byte above the read set `[0, 4)`. -/
theorem witness_InterleavedAccessesKeepTheResult :
    let s := inFlight .checksum { Regs.zero with dataLen := 4 } (mem 0 [1, 2, 3, 4])
    let l : List HostAccess := [.regWrite 0x18 4 9, .bufRead 0xFFF 0, .bufWrite 4 7, .regRead 0x04 4 1]
    s.busy = true ∧ decode s.pend = .ok .checksum ∧ s.haz = false ∧ (∀ a ∈ l, a.wellFormed = true)
      ∧ (∀ w n, HostAccess.bufRead w n ∈ l → w.toNat < s.cfg.bufSize)
      ∧ ∀ w v, HostAccess.bufWrite w v ∈ l → w.toNat < s.cfg.bufSize ∧ inReadSet .checksum s.x w.toNat = false := by
  refine ⟨by decide, by decide, by decide, by decide, fun w n h => ?_, fun w v h => ?_⟩
  · simp only [List.mem_cons, HostAccess.bufRead.injEq, reduceCtorEq, List.not_mem_nil, or_false, false_or] at h
    obtain ⟨rfl, rfl⟩ := h
    decide
  · simp only [List.mem_cons, HostAccess.bufWrite.injEq, reduceCtorEq, List.not_mem_nil, or_false, false_or] at h
    obtain ⟨rfl, rfl⟩ := h
    decide

theorem witness_CommandReadsOnlyItsOperands :
    let s := bench { Regs.zero with dataLen := 1 } [(0, 1)]
    let s' := bench { Regs.zero with dataLen := 1, src0 := 3 } [(0, 1), (1, 9)]
    s.cfg.bufSize = s'.cfg.bufSize ∧ (∀ r ∈ readsOf .sum, s.x.get r = s'.x.get r)
      ∧ (∀ a, inReadSet .sum s.x a = true → s.buf.byteAt a = s'.buf.byteAt a)
      ∧ (∃ t, exec .sum s = .next t ∧ t.err = none) ∧ ∃ t', exec .sum s' = .next t' := by
  refine ⟨rfl, by decide, fun a h => ?_, (next_of_obs (p := fun t => t.err == none) (by decide)).imp fun _ h => ⟨h.1, ?_⟩,
    (next_of_obs (p := fun _ => true) (by decide)).imp fun _ h => h.1⟩
  · have : a = 0 := by
      simp [inReadSet, readSet, inDescriptor, bench, State.reset, State.powerOn, Regs.zero] at h
      omega
    subst this
    decide
  · simpa using h.2

theorem witness_RegisterReadHasNoSideEffect : RegName.hasStorage .fmt4 = true ∧ RegName.hasStorage .acc = true := by decide

/-- The first and last RW offsets, CMD, the first and last RO offsets, the first and last unmapped offsets. -/
theorem witness_RegisterWriteWhileIdle :
    State.reset.busy = false
      ∧ (∀ off ∈ [0x08, 0x5C, 0x00, 0x04, 0x78, 0x7C, (0xFC : BitVec 8)], off.toNat % 4 = 0)
      ∧ (regAt 0x08 = some .acc ∧ RegName.access .acc = .rw) ∧ (regAt 0x5C = some .octInLo ∧ RegName.access .octInLo = .rw)
      ∧ regAt 0x00 = some .cmd ∧ (regAt 0x04 = some .status ∧ RegName.access .status = .ro)
      ∧ (regAt 0x78 = some .fmt4 ∧ RegName.access .fmt4 = .ro) ∧ regAt 0x7C = none ∧ regAt 0xFC = none := by
  decide

theorem witness_RegisterWriteWhileBusy : (inFlight .sum Regs.zero []).busy = true ∧ (0xFC : BitVec 8).toNat % 4 = 0 := by
  decide

theorem witness_UndefinedRegisterAccessIsRefused :
    ((2 : Nat) ≠ 4 ∨ (0x04 : BitVec 8).toNat % 4 ≠ 0) ∧ ((4 : Nat) ≠ 4 ∨ (0x05 : BitVec 8).toNat % 4 ≠ 0) := by decide

theorem witness_UnmappedOffsetsReadZero :
    (∀ off ∈ [0x7C, (0xFC : BitVec 8)], off.toNat % 4 = 0 ∧ 0x7C ≤ off.toNat) ∧ State.reset.busy = false
      ∧ (inFlight .sum Regs.zero []).busy = true := by decide

theorem witness_ResetAbandonsTheCommand :
    let s := { inFlight .sum Regs.zero [] with turns := [.reset, .engine] }
    s.turns = .reset :: [.engine] ∧ s.busy = true := by decide

/-- The last byte of BUF; the last byte of the read set, and the first above it, of a command in flight and of none. -/
theorem witness_BufWriteMarksHazard :
    (0xFFF : Word).toNat < State.reset.cfg.bufSize
      ∧ (let s := inFlight .checksum { Regs.zero with dataLen := 4 } [];
        s.busy = true ∧ decode s.pend = .ok .checksum ∧ (3 : Word).toNat < s.cfg.bufSize
          ∧ inReadSet .checksum s.x (3 : Word).toNat = true ∧ inReadSet .checksum s.x (4 : Word).toNat = false
          ∧ inPendingReadSet { s with busy := false } (3 : Word).toNat = false) := by
  decide

/-- The first address above BUF is no location. -/
theorem witness_BufWriteStoresOneByte :
    (0xFFF : Word).toNat < State.reset.cfg.bufSize ∧ State.reset.cfg.bufSize ≤ (0x1000 : Word).toNat := by decide

/-- A hazard, then a reset, then `halt`: the run has ended and has no end state (70_reset_and_hazards.md R240). -/
theorem witness_HazardStopsEveryCompletion :
    let s := { State.reset with
      haz := true, turns := [.reset, .host], host := { HostAgent.idle with prog := [.halt] } }
    s.haz = true ∧ ∃ t, core.run 2 s = .next t ∧ runEnded t = true ∧ endState t = none := ⟨rfl, _, rfl, rfl, rfl⟩

theorem witness_ErrorChangesOnlyStatus :
    ∃ t, exec .sum (sumBench 0 0xFFF 2 0 []) = .next t ∧ t.err = some .bufRange :=
  (next_of_obs (p := fun t => t.err == some .bufRange) (by decide)).imp fun _ h => ⟨h.1, by simpa using h.2⟩

/-- Every command completes from the bench's reset state: the frames and the rules have a case. -/
theorem witness_frames (i : Instr) : State.reset.haz = false ∧ ∃ t, exec i State.reset = .next t :=
  ⟨rfl, exec_completes i rfl⟩

/-! #### The clauses of the summing commands, each at a boundary -/

/-- BUF_RANGE one byte over the end; SKIP one over the word count; a total of 2^32; a total of 2^32 - 1. -/
theorem witness_SumFollowsItsRule :
    (let s := sumBench 0 0xFFF 2 0 [];
      s.haz = false ∧ ¬ (s.x.dataLen.toNat = 0 ∨ s.x.dataBase.toNat + s.x.dataLen.toNat ≤ s.cfg.bufSize))
    ∧ (let s := sumBench 0 0xFFD 3 2 (mem 0xFFD [1, 2, 3]);
      s.haz = false ∧ (s.x.dataLen.toNat = 0 ∨ s.x.dataBase.toNat + s.x.dataLen.toNat ≤ s.cfg.bufSize)
        ∧ (bytes s.buf s.x.dataBase s.x.dataLen).length / 2 < s.x.skip.toNat)
    ∧ (let s := sumBench 0xFFFFFFFF 0 2 1 (mem 0 [0, 1]);
      s.haz = false ∧ s.x.skip.toNat ≤ (bytes s.buf s.x.dataBase s.x.dataLen).length / 2
        ∧ s.x.acc.toNat + sumBeWords (bytes s.buf s.x.dataBase s.x.dataLen) s.x.skip.toNat = 0xFFFFFFFF + 1)
    ∧ (let s := sumBench 0xFFFFFFFE 0 2 1 (mem 0 [0, 1]);
      s.haz = false ∧ s.x.skip.toNat ≤ (bytes s.buf s.x.dataBase s.x.dataLen).length / 2
        ∧ s.x.acc.toNat + sumBeWords (bytes s.buf s.x.dataBase s.x.dataLen) s.x.skip.toNat = 0xFFFFFFFF) := by
  decide

theorem witness_ChecksumFollowsItsRule_ranges :
    (let s := sumBench 0 0xFFF 2 0 [];
      s.haz = false ∧ ¬ (s.x.dataLen.toNat = 0 ∨ s.x.dataBase.toNat + s.x.dataLen.toNat ≤ s.cfg.bufSize))
    ∧ (let s := sumBench 0 0xFFD 3 2 (mem 0xFFD [1, 2, 3]);
      s.haz = false ∧ (s.x.dataLen.toNat = 0 ∨ s.x.dataBase.toNat + s.x.dataLen.toNat ≤ s.cfg.bufSize)
        ∧ (bytes s.buf s.x.dataBase s.x.dataLen).length / 2 < s.x.skip.toNat) := by
  decide

/-- BUF with its first `n` bytes 0xFF. -/
def ones (n : Nat) : Memory := (List.range n).map fun a => (a, 0xFF)

theorem read?_map (l : List Nat) (a : Nat) (h : a ∈ l) : Memory.read? (l.map fun a => (a, (0xFF : Byte))) a = some 0xFF := by
  induction l with
  | nil => simp at h
  | cons b l ih =>
    by_cases hb : b = a
    · simp [Memory.read?, hb]
    · simp only [List.map_cons, Memory.read?, hb, if_false]
      exact ih (by simpa [Ne.symm hb] using h)

theorem bytes_ones (n : Nat) (len : Word) (h : len.toNat ≤ n) : bytes (ones n) 0 len = List.replicate len.toNat 0xFF := by
  refine List.eq_replicate_iff.2 ⟨bytes_length _ _ _, fun b hb => ?_⟩
  simp only [bytes, List.mem_map, List.mem_range] at hb
  obtain ⟨i, hi, rfl⟩ := hb
  have := read?_map (List.range n) i (List.mem_range.2 (by omega))
  simp only [Memory.byteAt, ones]
  rw [show (0 : Word).toNat + i = i from Nat.zero_add i, this]
  rfl

/-- A block with a large BUF whose first `2n` bytes are 0xFF, all of them data, with the sentinel skip. -/
def onesBench (n : Nat) : State :=
  { State.powerOn { lastAddr := 0xFFFFFFFF, regBase := 0 } with
    x := { Regs.zero with dataLen := BitVec.ofNat 32 (2 * n), skip := BitVec.ofNat 32 n }, buf := ones (2 * n) }

theorem onesBench_sum (n : Nat) (h : n ≤ 100000) :
    let s := onesBench n
    s.haz = false ∧ (s.x.dataLen.toNat = 0 ∨ s.x.dataBase.toNat + s.x.dataLen.toNat ≤ s.cfg.bufSize)
      ∧ s.x.skip.toNat ≤ (bytes s.buf s.x.dataBase s.x.dataLen).length / 2
      ∧ sumBeWords (bytes s.buf s.x.dataBase s.x.dataLen) s.x.skip.toNat = n * 0xFFFF := by
  have hl : (BitVec.ofNat 32 (2 * n)).toNat = 2 * n := by
    simp
    omega
  have hs : (BitVec.ofNat 32 n).toNat = n := by
    simp
    omega
  have hb := bytes_ones (2 * n) (BitVec.ofNat 32 (2 * n)) (by omega)
  rw [hl] at hb
  have hw : ∀ i < n, wordOf (List.replicate (2 * n) 0xFF) i = 0xFFFF := by
    intro i hi
    simp only [wordOf, List.getD, List.getElem?_replicate]
    rw [if_pos (by omega), if_pos (by omega)]
    rfl
  refine ⟨rfl, .inr ?_, ?_, ?_⟩
  · show 0 + (BitVec.ofNat 32 (2 * n)).toNat ≤ 0xFFFFFFFF + 1
    omega
  · show (BitVec.ofNat 32 n).toNat ≤ (bytes (ones (2 * n)) 0 (BitVec.ofNat 32 (2 * n))).length / 2
    rw [bytes_length, hl, hs]
    omega
  · show sumBeWords (bytes (ones (2 * n)) 0 (BitVec.ofNat 32 (2 * n))) (BitVec.ofNat 32 n).toNat = n * 0xFFFF
    rw [hb, hs]
    unfold sumBeWords
    rw [halfOf_even (by simp)]
    have hc : wordCount (List.replicate (2 * n) (0xFF : Byte)).length = n := by simp [wordCount]
    have := sum_range_congr (n := n) (f := fun i => if i = n then 0 else wordOf (List.replicate (2 * n) 0xFF) i)
      (g := fun _ => 0xFFFF) fun i hi => by rw [if_neg (by omega), hw i hi]
    rw [hc, this]
    simp

/-- 65538 words of 0xFFFF exceed 2^32 - 1; 65537 words reach it (42_checksum.md R125). -/
theorem witness_ChecksumFollowsItsRule_totals :
    (let s := onesBench 65538;
      s.haz = false ∧ (s.x.dataLen.toNat = 0 ∨ s.x.dataBase.toNat + s.x.dataLen.toNat ≤ s.cfg.bufSize)
        ∧ s.x.skip.toNat ≤ (bytes s.buf s.x.dataBase s.x.dataLen).length / 2
        ∧ 0xFFFFFFFF < sumBeWords (bytes s.buf s.x.dataBase s.x.dataLen) s.x.skip.toNat)
    ∧ (let s := onesBench 65537;
      s.haz = false ∧ (s.x.dataLen.toNat = 0 ∨ s.x.dataBase.toNat + s.x.dataLen.toNat ≤ s.cfg.bufSize)
        ∧ s.x.skip.toNat ≤ (bytes s.buf s.x.dataBase s.x.dataLen).length / 2
        ∧ sumBeWords (bytes s.buf s.x.dataBase s.x.dataLen) s.x.skip.toNat = 0xFFFFFFFF) := by
  have h1 := onesBench_sum 65538 (by decide)
  have h2 := onesBench_sum 65537 (by decide)
  exact ⟨⟨h1.1, h1.2.1, h1.2.2.1, by rw [h1.2.2.2]; decide⟩, ⟨h2.1, h2.2.1, h2.2.2.1, by rw [h2.2.2.2]⟩⟩

/-- The descriptors of a pseudo-header command, in the words of its statement. -/
def dataInside (s : State) : Prop := s.x.dataLen.toNat = 0 ∨ s.x.dataBase.toNat + s.x.dataLen.toNat ≤ s.cfg.bufSize

def extraInside (s : State) : Prop := s.x.extraLen.toNat = 0 ∨ s.x.extraBase.toNat + s.x.extraLen.toNat ≤ s.cfg.bufSize

/-- Each descriptor one byte over the end; SKIP one over the word count; the case that completes, at the sentinel. The
same states serve IPV4_CHECKSUM and IPV6_CHECKSUM. -/
theorem witness_PseudoHeaderRules_ranges :
    (let s := bench { packetRegs with dataBase := 0xFF9 } packetMem;
      s.haz = false ∧ ¬ dataInside s)
    ∧ (let s := bench { packetRegs with extraBase := 0xFFD } packetMem;
      s.haz = false ∧ dataInside s ∧ ¬ extraInside s)
    ∧ (let s := bench { packetRegs with skip := 5 } packetMem;
      s.haz = false ∧ dataInside s ∧ extraInside s
        ∧ (bytes s.buf s.x.dataBase s.x.dataLen).length / 2 < s.x.skip.toNat) := by
  unfold dataInside extraInside
  decide

theorem witness_Ipv4ChecksumFollowsItsRule_completes :
    let s := { v4Bench with x := { v4Bench.x with skip := 4 } }
    s.haz = false ∧ dataInRange s ∧ extraInRange s ∧ s.x.skip.toNat ≤ (dataBytes s).length / 2
      ∧ pseudoV4 s.x + bodySum s ≤ 0xFFFFFFFF := by
  decide

theorem witness_Ipv6ChecksumFollowsItsRule_completes :
    let s := { v6Bench with x := { v6Bench.x with skip := 4 } }
    s.haz = false ∧ dataInRange s ∧ extraInRange s ∧ s.x.skip.toNat ≤ (dataBytes s).length / 2
      ∧ pseudoV6 s.x + bodySum s ≤ 0xFFFFFFFF := by
  decide

/-- The length term alone, with one more from the protocol identifier, exceeds the accumulator whatever BUF holds. -/
theorem witness_PseudoHeaderRules_overflow :
    let s := { State.powerOn { lastAddr := 0xFFFFFFFF, regBase := 0 } with x := { Regs.zero with dataLen := 0xFFFFFFFF, proto := 1 } }
    s.haz = false ∧ dataInside s ∧ extraInside s ∧ s.x.skip.toNat ≤ (bytes s.buf s.x.dataBase s.x.dataLen).length / 2
      ∧ 0xFFFFFFFF < pseudoV4 s.x + bodySum s ∧ 0xFFFFFFFF < pseudoV6 s.x + bodySum s := by
  refine ⟨rfl, .inr (by decide), .inl rfl, ?_, Nat.lt_of_lt_of_le (by decide) (Nat.le_add_right _ _),
    Nat.lt_of_lt_of_le (by decide) (Nat.le_add_right _ _)⟩
  rw [bytes_length]
  decide

/-! #### The address unit -/

/-- The text bench at a given base. -/
def textAt (base : Word) (t : List Byte) : State :=
  bench { Regs.zero with textBase := base, textLen := BitVec.ofNat 32 t.length } (mem base.toNat t)

/-- The text one byte over the end; five and seven components; six components that end at the last byte of BUF. -/
theorem witness_MacParseFollowsItsRule :
    (let s := textAt 0xFFF [0x31, 0x32];
      s.haz = false ∧ ¬ (s.x.textLen.toNat = 0 ∨ s.x.textBase.toNat + s.x.textLen.toNat ≤ s.cfg.bufSize))
    ∧ (let s := textAt 0xFF7 [0x31, 0x3A, 0x32, 0x3A, 0x33, 0x3A, 0x34, 0x3A, 0x35];
      s.haz = false ∧ textInRange s ∧ parseMac (bytes s.buf s.x.textBase s.x.textLen) = .error .parseTooFew)
    ∧ (let s := textAt 0xFF3 [0x31, 0x3A, 0x32, 0x3A, 0x33, 0x3A, 0x34, 0x3A, 0x35, 0x3A, 0x36, 0x3A, 0x37];
      s.haz = false ∧ textInRange s ∧ parseMac (bytes s.buf s.x.textBase s.x.textLen) = .error .parseTooMany)
    ∧ (let s := textAt 0xFF5 [0x31, 0x3A, 0x32, 0x3A, 0x33, 0x3A, 0x34, 0x3A, 0x35, 0x3A, 0x36];
      s.haz = false ∧ textInRange s ∧ parseMac (bytes s.buf s.x.textBase s.x.textLen) = .ok [1, 2, 3, 4, 5, 6]) := by
  decide

theorem witness_ComponentIsOneOrTwoHexDigits :
    componentValue [0x66] = some 0x0F ∧ componentValue [0x46, 0x39] = some 0xF9 := by decide

theorem witness_AddressConstructionByTwoWrites : State.reset.busy = false := rfl

/-- `12:34:56:78:90:ab` (44_hwaddr.md R166). -/
def macText : List Byte :=
  [0x31, 0x32, 0x3A, 0x33, 0x34, 0x3A, 0x35, 0x36, 0x3A, 0x37, 0x38, 0x3A, 0x39, 0x30, 0x3A, 0x61, 0x62]

theorem witness_MacTextRoundTrip :
    (let s := textAt 0x400 macText;
      s.haz = false ∧ textInRange s ∧ textBytes s = macText ∧ macText.length = 17)
    ∧ (∀ k < 17, if k % 3 = 2 then macText.getD k 0 = 0x3A
        else (0x30 ≤ (macText.getD k 0).toNat ∧ (macText.getD k 0).toNat ≤ 0x39)
          ∨ (0x61 ≤ (macText.getD k 0).toNat ∧ (macText.getD k 0).toNat ≤ 0x66)) := by
  decide

theorem witness_FormatIsInjective :
    ([0x12, 0x34, 0x56, 0x78, 0x90, 0xAB] : List Byte).length = 6 ∧ (List.replicate 6 (0 : Byte)).length = 6 := by decide

/-! #### The laws -/

theorem witness_FoldLaws : 0 < 0xFFFF ∧ 0xFFFF % 0xFFFF = 0 ∧ 0xFFFF ≤ 0xFFFF := by decide

theorem witness_FinalizeLaws : fold16 1 = fold16 0x10000 := by decide

theorem witness_ChecksumNeverOverflowsOnShortData :
    let s := sumBench 0 0 131074 0 []
    (∃ t, exec .checksum s = .next t) ∧ s.x.dataLen.toNat ≤ 131074 := ⟨exec_completes _ rfl, by decide⟩

theorem witness_PseudoHeaderNeverOverflowsOnShortData :
    (let s := bench { Regs.zero with dataLen := 131060, extraLen := 1 } [];
      (∃ t, exec .ipv4Checksum s = .next t) ∧ s.x.dataLen.toNat + s.x.extraLen.toNat ≤ 131061)
    ∧ (let s := bench { Regs.zero with dataLen := 131036, extraLen := 1 } [];
      (∃ t, exec .ipv6Checksum s = .next t) ∧ s.x.dataLen.toNat + s.x.extraLen.toNat ≤ 131037) :=
  ⟨⟨exec_completes _ rfl, by decide⟩, ⟨exec_completes _ rfl, by decide⟩⟩

/-- Two SUMs from ACC = 0, the second over an odd buffer at an odd base. -/
theorem witness_SequenceOfSumsAddsUp :
    let l : List (Word × Word × Word) := [(0x10, 2, 1), (0x11, 3, 0)]
    let load := fun (d : Word × Word × Word) s => putReg .skip d.2.2 (putReg .dataLen d.2.1 (putReg .dataBase d.1 s))
    ∃ f : Nat → State, (f 0).x.acc = 0
      ∧ ∀ j (h : j < l.length), exec .sum (load l[j] (f j)) = .next (f (j + 1)) ∧ (f (j + 1)).err = none := by
  intro l load
  obtain ⟨t, ht, h⟩ := next_of_obs (r := exec .sum (load (0x10, 2, 1) (bench Regs.zero (mem 0x10 [1, 2, 3, 4]))))
    (p := fun t => t.err == none && obs (fun u => u.err == none) (exec .sum (load (0x11, 3, 0) t)) == some true) (by decide)
  simp only [Bool.and_eq_true, beq_iff_eq] at h
  obtain ⟨u, hu, h'⟩ := next_of_obs h.2
  refine ⟨fun j => if j = 0 then bench Regs.zero (mem 0x10 [1, 2, 3, 4]) else if j = 1 then t else u, rfl, fun j hj => ?_⟩
  match j, hj with
  | 0, _ => exact ⟨ht, h.1⟩
  | 1, _ => exact ⟨hu, by simpa using h'⟩

/-- The last whole word of an odd buffer. -/
theorem witness_ChecksumRoundTrip :
    let d : List Byte := [0x12, 0x34, 0x56, 0x78, 0x9A]
    let d' := putWordAt d 1 (finalizeSum (sumBeWords d 1))
    let s := sumBench 0 0 5 2 (mem 0 d')
    1 < d.length / 2 ∧ sumBeWords d' (d.length / 2) ≤ 0xFFFFFFFF ∧ s.haz = false ∧ dataInRange s ∧ dataBytes s = d'
      ∧ s.x.skip.toNat = d'.length / 2 := by
  decide

/-- The packet of `v4Bench` with its checksum 0x9DF6 stored (95_test_vectors.md S9) and the sentinel skip. -/
def v4Repeat : State :=
  { v4Bench with
    x := { v4Bench.x with skip := 4 }
    buf := mem 0x200 [0x04, 0xD2, 0x16, 0x2E, 0x00, 0x0C, 0x9D, 0xF6] ++ mem 0x300 [0x61, 0x62, 0x63, 0x64] }

theorem witness_PseudoHeaderRoundTrip :
    ∃ t t', exec .ipv4Checksum v4Bench = .next t ∧ t.err = none
      ∧ v4Bench.x.skip.toNat < v4Bench.x.dataLen.toNat / 2 ∧ v4Repeat.cfg = v4Bench.cfg
      ∧ (∀ r ∈ readsOf .ipv4Checksum, r ≠ .skip → v4Repeat.x.get r = v4Bench.x.get r)
      ∧ v4Repeat.x.skip.toNat = v4Bench.x.dataLen.toNat / 2
      ∧ dataBytes v4Repeat = putWordAt (dataBytes v4Bench) v4Bench.x.skip.toNat t.x.result
      ∧ extraBytes v4Repeat = extraBytes v4Bench
      ∧ exec .ipv4Checksum v4Repeat = .next t' ∧ t'.err ≠ some .overflow := by
  obtain ⟨t, ht, h⟩ := next_of_obs (r := exec .ipv4Checksum v4Bench) (p := fun t => t.err == none && t.x.result == 0x9DF6)
    (by decide)
  obtain ⟨t', ht', h'⟩ := next_of_obs (r := exec .ipv4Checksum v4Repeat) (p := fun t => t.err == none) (by decide)
  simp only [Bool.and_eq_true, beq_iff_eq] at h h'
  refine ⟨t, t', ht, h.1, by decide, rfl, by decide, by decide, ?_, by decide, ht', ?_⟩
  · rw [h.2]
    decide
  · rw [h']
    decide

/-- The packet of `v6Bench` with its checksum 0xC49A stored and the sentinel skip. -/
def v6Repeat : State :=
  { v6Bench with
    x := { v6Bench.x with skip := 4 }
    buf := mem 0x200 [0x04, 0xD2, 0x16, 0x2E, 0x00, 0x0C, 0xC4, 0x9A] ++ mem 0x300 [0x61, 0x62, 0x63, 0x64] }

theorem witness_PseudoHeaderRoundTrip_v6 :
    ∃ t t', exec .ipv6Checksum v6Bench = .next t ∧ t.err = none
      ∧ v6Bench.x.skip.toNat < v6Bench.x.dataLen.toNat / 2 ∧ v6Repeat.cfg = v6Bench.cfg
      ∧ (∀ r ∈ readsOf .ipv6Checksum, r ≠ .skip → v6Repeat.x.get r = v6Bench.x.get r)
      ∧ v6Repeat.x.skip.toNat = v6Bench.x.dataLen.toNat / 2
      ∧ dataBytes v6Repeat = putWordAt (dataBytes v6Bench) v6Bench.x.skip.toNat t.x.result
      ∧ extraBytes v6Repeat = extraBytes v6Bench
      ∧ exec .ipv6Checksum v6Repeat = .next t' ∧ t'.err ≠ some .overflow := by
  obtain ⟨t, ht, h⟩ := next_of_obs (r := exec .ipv6Checksum v6Bench) (p := fun t => t.err == none && t.x.result == 0xC49A)
    (by decide)
  obtain ⟨t', ht', h'⟩ := next_of_obs (r := exec .ipv6Checksum v6Repeat) (p := fun t => t.err == none) (by decide)
  simp only [Bool.and_eq_true, beq_iff_eq] at h h'
  refine ⟨t, t', ht, h.1, by decide, rfl, by decide, by decide, ?_, by decide, ht', ?_⟩
  · rw [h.2]
    decide
  · rw [h']
    decide

theorem witness_SkippedWordCountsAsZero : 1 < ([1, 2, 3, 4, 5] : List Byte).length / 2 := by decide

/-- The last word of an even buffer, and an empty one. -/
theorem witness_SplitLaw :
    ([1, 2, 3, 4] : List Byte).length % 2 = 0 ∧ 1 < ([1, 2, 3, 4] : List Byte).length / 2 ∧ ([] : List Byte).length % 2 = 0 := by
  decide

theorem witness_PseudoHeaderCommandsDecompose :
    (∃ t, exec .ipv4Checksum v4Bench = .next t ∧ t.err = none)
      ∧ ∃ t, exec .ipv6Checksum v6Bench = .next t ∧ t.err = none :=
  ⟨(next_of_obs (p := fun t => t.err == none) (by decide)).imp fun _ h => ⟨h.1, by simpa using h.2⟩,
    (next_of_obs (p := fun t => t.err == none) (by decide)).imp fun _ h => ⟨h.1, by simpa using h.2⟩⟩

/-- The Host program `run CHECKSUM -> 0; halt`. -/
def runBench : State :=
  { State.reset with
    host := { prog := assemble [.run .checksum 0, .stmt .halt], pc := 0, names := [], halted := false } }

theorem witness_RunStatementReadsTheCompletedStatus :
    runBench.busy = false ∧ runBench.haz = false ∧ runBench.turns = []
      ∧ runBench.host = { prog := assemble [.run .checksum 0, .stmt .halt], pc := 0, names := [], halted := false } := by
  decide

/-- The first and the last register, the first unmapped offset, and both ends of a register window at 0x40000000. -/
theorem witness_RegisterMapFollowsTheTable :
    (regAt 0x00 = some .cmd ∧ RegName.access .cmd = .wo) ∧ (regAt 0x78 = some .fmt4 ∧ RegName.access .fmt4 = .ro)
      ∧ regAt 0x7C = none
      ∧ (let c : Config := { lastAddr := 0, regBase := 0x40000000 };
        windowOffset c 0x3FFFFFFF = none ∧ windowOffset c 0x40000000 = some 0x00 ∧ windowOffset c 0x400000FF = some 0xFF
          ∧ windowOffset c 0x40000100 = none ∧ registerAddress c .fmt4 = 0x40000078) := by
  decide

end Sys2Proof.Tests
end

section
/-! PROOFS. The rules for steps, accesses and register reads that 10_state.md's statements need, and those statements. -/

namespace Sys2Proof.Machine

/-! ### `moved` -/

@[simp] theorem moved_cfg (s : State) (h : HostAgent) (ts : List Turn) : (moved s h ts).cfg = s.cfg := rfl
@[simp] theorem moved_x (s : State) (h : HostAgent) (ts : List Turn) : (moved s h ts).x = s.x := rfl
@[simp] theorem moved_buf (s : State) (h : HostAgent) (ts : List Turn) : (moved s h ts).buf = s.buf := rfl
@[simp] theorem moved_busy (s : State) (h : HostAgent) (ts : List Turn) : (moved s h ts).busy = s.busy := rfl
@[simp] theorem moved_done (s : State) (h : HostAgent) (ts : List Turn) : (moved s h ts).done = s.done := rfl
@[simp] theorem moved_wign (s : State) (h : HostAgent) (ts : List Turn) : (moved s h ts).wign = s.wign := rfl
@[simp] theorem moved_err (s : State) (h : HostAgent) (ts : List Turn) : (moved s h ts).err = s.err := rfl
@[simp] theorem moved_pend (s : State) (h : HostAgent) (ts : List Turn) : (moved s h ts).pend = s.pend := rfl
@[simp] theorem moved_haz (s : State) (h : HostAgent) (ts : List Turn) : (moved s h ts).haz = s.haz := rfl
@[simp] theorem moved_host (s : State) (h : HostAgent) (ts : List Turn) : (moved s h ts).host = h := rfl
@[simp] theorem moved_turns (s : State) (h : HostAgent) (ts : List Turn) : (moved s h ts).turns = ts := rfl

/-! ### Commands: what every completion leaves unchanged (30_encoding.md R87) -/

/-- A completed command has changed registers, ERR, BUSY and DONE only. -/
theorem exec_frame {i : Instr} {s t : State} (h : exec i s = .next t) :
    t = { s with x := t.x, err := t.err, busy := false, done := true } := by
  obtain ⟨-, ⟨c, -, rfl⟩ | ⟨e, rfl⟩⟩ := exec_next h
  · rfl
  · rfl

theorem exec_cfg {i : Instr} {s t : State} (h : exec i s = .next t) : t.cfg = s.cfg := by
  rw [exec_frame h]

theorem exec_buf {i : Instr} {s t : State} (h : exec i s = .next t) : t.buf = s.buf := by
  rw [exec_frame h]

theorem exec_haz {i : Instr} {s t : State} (h : exec i s = .next t) : t.haz = s.haz := by
  rw [exec_frame h]

theorem exec_busy {i : Instr} {s t : State} (h : exec i s = .next t) : t.busy = false := by
  rw [exec_frame h]

theorem exec_done {i : Instr} {s t : State} (h : exec i s = .next t) : t.done = true := by
  rw [exec_frame h]

/-! ### Register writes (10_state.md R40, R41) -/

theorem regWrite_of_busy {s : State} (h : s.busy = true) (off : BitVec 8) (v : Word) :
    regWrite off v s = dropWrite s := if_pos h

theorem regWrite_of_idle {s : State} (h : s.busy = false) (off : BitVec 8) (v : Word) :
    regWrite off v s = regWriteIdle off v s := if_neg (by simp [h])

theorem regWriteIdle_unmapped {off : BitVec 8} (h : regAt off = none) (v : Word) (s : State) :
    regWriteIdle off v s = s := by
  simp [regWriteIdle, h]

theorem regWriteIdle_cmd {off : BitVec 8} (h : regAt off = some .cmd) (v : Word) (s : State) :
    regWriteIdle off v s = cmdWrite v s := by
  simp [regWriteIdle, h, RegName.access]

theorem regWriteIdle_rw {off : BitVec 8} {r : RegName} (h : regAt off = some r) (hr : r.access = .rw) (v : Word)
    (s : State) : regWriteIdle off v s = putReg r v s := by
  simp [regWriteIdle, h, hr]

theorem regWriteIdle_ro {off : BitVec 8} {r : RegName} (h : regAt off = some r) (hr : r.access = .ro) (v : Word)
    (s : State) : regWriteIdle off v s = s := by
  simp [regWriteIdle, h, hr]

/-- Everything a register write can do, whatever BUSY is: each update leaves BUF, HAZ and the parameters alone. -/
theorem regWrite_cases (off : BitVec 8) (v : Word) (s : State) :
    regWrite off v s = dropWrite s ∨ regWrite off v s = s ∨ (isLegal v = true ∧ regWrite off v s = issue v s)
      ∨ regWrite off v s = rejectWord s ∨ ∃ r, regWrite off v s = putReg r v s := by
  cases hb : s.busy with
  | true => exact .inl (regWrite_of_busy hb off v)
  | false =>
    rw [regWrite_of_idle hb]
    obtain h | h | h | ⟨r, -, h⟩ := regWriteIdle_cases off v s
    · exact .inr (.inl h)
    · exact .inr (.inr (.inl h))
    · exact .inr (.inr (.inr (.inl h)))
    · exact .inr (.inr (.inr (.inr ⟨r, h⟩)))

@[simp] theorem regWrite_cfg (off : BitVec 8) (v : Word) (s : State) : (regWrite off v s).cfg = s.cfg := by
  obtain h | h | ⟨-, h⟩ | h | ⟨r, h⟩ := regWrite_cases off v s <;> simp [h]

@[simp] theorem regWrite_haz (off : BitVec 8) (v : Word) (s : State) : (regWrite off v s).haz = s.haz := by
  obtain h | h | ⟨-, h⟩ | h | ⟨r, h⟩ := regWrite_cases off v s <;> simp [h]

/-! ### Host accesses (10_state.md R39-R45) -/

theorem hostAccess_regRead {off : BitVec 8} (h : off.toNat % 4 = 0) (n : Nat) (s : State) :
    hostAccess (.regRead off 4 n) s = .next (bindName n (readOffset s off) s) :=
  if_pos (by simp [HostAccess.wellFormed, h])

theorem hostAccess_regWrite {off : BitVec 8} (h : off.toNat % 4 = 0) (v : Word) (s : State) :
    hostAccess (.regWrite off 4 v) s = .next (regWrite off v s) :=
  if_pos (by simp [HostAccess.wellFormed, h])

theorem hostAccess_regWrite_busy {off : BitVec 8} {s : State} (h : off.toNat % 4 = 0) (hb : s.busy = true) (v : Word) :
    hostAccess (.regWrite off 4 v) s = .next { s with wign := true } := by
  rw [hostAccess_regWrite h, regWrite_of_busy hb]
  rfl

theorem hostAccess_regWrite_idle {off : BitVec 8} {s : State} (h : off.toNat % 4 = 0) (hb : s.busy = false) (v : Word) :
    hostAccess (.regWrite off 4 v) s = .next (regWriteIdle off v s) := by
  rw [hostAccess_regWrite h, regWrite_of_idle hb]

/-- Everything a Host access can do: a read changes the Host alone, a write is one of the two write operations. -/
theorem hostAccess_next {a : HostAccess} {s t : State} (h : hostAccess a s = .next t) :
    (∃ n v, t = bindName n v s) ∨ (∃ off v, t = regWrite off v s)
      ∨ ∃ b v, b < s.cfg.bufSize ∧ t = bufWrite b v s := by
  cases a with
  | regRead off width n =>
    simp only [hostAccess] at h
    split at h
    · cases h
      exact .inl ⟨_, _, rfl⟩
    · cases h
  | regWrite off width v =>
    simp only [hostAccess] at h
    split at h
    · cases h
      exact .inr (.inl ⟨_, _, rfl⟩)
    · cases h
  | bufRead w n =>
    simp only [hostAccess] at h
    split at h
    · cases h
      exact .inl ⟨_, _, rfl⟩
    · cases h
  | bufWrite w v =>
    simp only [hostAccess] at h
    split at h
    · rename_i hw
      cases h
      exact .inr (.inr ⟨_, _, hw, rfl⟩)
    · cases h

/-- What a Host access keeps while BUSY is 1 (10_state.md R39, R41; 20_memory.md R76). -/
theorem hostAccess_frozen {a : HostAccess} {s t : State} (hb : s.busy = true) (h : hostAccess a s = .next t) :
    t.x = s.x ∧ t.busy = true ∧ t.done = s.done ∧ t.err = s.err ∧ t.pend = s.pend ∧ (s.wign = true → t.wign = true) := by
  obtain ⟨n, v, rfl⟩ | ⟨off, v, rfl⟩ | ⟨b, v, -, rfl⟩ := hostAccess_next h
  · simp [hb]
  · simp [regWrite_of_busy hb, hb]
  · simp [hb]

/-! ### The steps that are not the Engine's and no reset -/

/-- A Host branch moves the Host and nothing else (30_encoding.md R92). -/
theorem hostBranch_next {c : Word → Bool} {n l : Nat} {s t : State} (h : hostBranch c n l s = .next t) :
    ∃ g, t = moved s g s.turns := by
  unfold hostBranch at h
  split at h
  · cases h
  · split at h
    · unfold hostGoto at h
      split at h
      · cases h
        exact ⟨_, rfl⟩
      · cases h
    · cases h
      exact ⟨_, rfl⟩

/-- A Host statement moves the Host, and then makes at most one access (30_encoding.md R92). -/
theorem hostStmt_next {st : HostStmt} {s t : State} (h : hostStmt st s = .next t) :
    (∃ g, t = moved s g s.turns) ∨ ∃ a, hostAccess a (hostNext s) = .next t := by
  cases st with
  | wr r v => exact .inr ⟨.regWrite r.offset 4 v, h⟩
  | rd r n => exact .inr ⟨.regRead r.offset 4 n, h⟩
  | sb w v => exact .inr ⟨.bufWrite w v, h⟩
  | cmd i => exact .inr ⟨.regWrite RegName.cmd.offset 4 (encode i), h⟩
  | label l =>
    cases h
    exact .inl ⟨_, rfl⟩
  | bbusy n l => exact .inl (hostBranch_next h)
  | berr n l => exact .inl (hostBranch_next h)
  | halt =>
    cases h
    exact .inl ⟨_, rfl⟩

theorem hostStep_next {s t : State} (h : hostStep s = .next t) :
    (∃ g, t = moved s g s.turns) ∨ ∃ a, hostAccess a (hostNext s) = .next t := by
  unfold hostStep at h
  split at h
  · cases h
    exact .inl ⟨_, rfl⟩
  · split at h
    · exact hostStmt_next h
    · cases h
      exact .inl ⟨_, rfl⟩

theorem step_of_nextTurn {s : State} {u : Turn} (h : nextTurn s = some u) : step s = takeTurn u (dropTurn s) := by
  simp [step, h]

theorem step_of_noTurn {s : State} (h : nextTurn s = none) : step s = .next s := by
  simp [step, h]

/-- A step that is neither the Engine's nor a reset changes the Host and the schedule alone, or is one access. -/
theorem step_hostSide {s t : State} (h : step s = .next t) (he : nextTurn s ≠ some .engine)
    (hr : nextTurn s ≠ some .reset) :
    (∃ g ts, t = moved s g ts) ∨ ∃ a g ts, hostAccess a (moved s g ts) = .next t := by
  cases hn : nextTurn s with
  | none =>
    rw [step_of_noTurn hn] at h
    cases h
    exact .inl ⟨s.host, s.turns, rfl⟩
  | some u =>
    rw [step_of_nextTurn hn] at h
    cases u with
    | engine => exact absurd hn he
    | host =>
      obtain ⟨g, rfl⟩ | ⟨a, ha⟩ := hostStep_next h
      · exact .inl ⟨g, s.turns.tail, rfl⟩
      · exact .inr ⟨a, { s.host with pc := s.host.pc + 1 }, s.turns.tail, ha⟩
    | access a => exact .inr ⟨a, s.host, s.turns.tail, h⟩
    | reset => exact absurd hn hr

/-- The Engine's step while BUSY is 1 is the completion of the command in PEND (30_encoding.md R87). -/
theorem step_engine {s t : State} (h : step s = .next t) (hb : s.busy = true) (he : nextTurn s = some .engine) :
    ∃ i, decode s.pend = .ok i ∧ exec i (dropTurn s) = .next t := by
  rw [step_of_nextTurn he] at h
  simp only [takeTurn, dropTurn_busy, hb, if_true] at h
  unfold engineStep at h
  split at h
  · rename_i i hi
    exact ⟨i, hi, h⟩
  · cases h

/-! ### The invariant, update by update -/

theorem inv_moved {s : State} (hi : s.Inv) (h : HostAgent) (ts : List Turn) : (moved s h ts).Inv :=
  ⟨hi.buf_wf, hi.buf_within, hi.busy_done, hi.busy_err, hi.busy_legal⟩

/-- An idle state meets the invariant as soon as its BUF does. -/
theorem inv_of_idle {s t : State} (hi : s.Inv) (hcfg : t.cfg = s.cfg) (hbuf : t.buf = s.buf) (hb : t.busy = false) :
    t.Inv where
  buf_wf := hbuf ▸ hi.buf_wf
  buf_within := by
    rw [hbuf, hcfg]
    exact hi.buf_within
  busy_done h := by simp [hb] at h
  busy_err h := by simp [hb] at h
  busy_legal h := by simp [hb] at h

theorem inv_issue {s : State} {v : Word} (hi : s.Inv) (hv : isLegal v = true) : (issue v s).Inv :=
  ⟨hi.buf_wf, hi.buf_within, fun _ => rfl, fun _ => rfl, fun _ => hv⟩

theorem inv_regWrite {s : State} (hi : s.Inv) (off : BitVec 8) (v : Word) : (regWrite off v s).Inv := by
  obtain h | h | ⟨hv, h⟩ | h | ⟨r, h⟩ := regWrite_cases off v s <;> rw [h]
  · exact ⟨hi.buf_wf, hi.buf_within, hi.busy_done, hi.busy_err, hi.busy_legal⟩
  · exact hi
  · exact inv_issue hi hv
  · exact inv_of_idle hi rfl rfl rfl
  · exact ⟨hi.buf_wf, hi.buf_within, hi.busy_done, hi.busy_err, hi.busy_legal⟩

theorem inv_bufWrite {s : State} {a : Nat} (hi : s.Inv) (ha : a < s.cfg.bufSize) (v : Byte) : (bufWrite a v s).Inv :=
  ⟨s.buf.write_wf a v hi.buf_wf, s.buf.write_within v hi.buf_within ha, hi.busy_done, hi.busy_err, hi.busy_legal⟩

theorem inv_exec {i : Instr} {s t : State} (hi : s.Inv) (h : exec i s = .next t) : t.Inv :=
  inv_of_idle hi (exec_cfg h) (exec_buf h) (exec_busy h)

/-! ### What a Host read returns (10_state.md R39, R45) -/

theorem readReg_of_ne_status {r : RegName} (h : r ≠ .status) (s : State) : readReg s r = s.x.get r := by
  unfold readReg
  split
  · exact absurd rfl h
  · rfl

theorem RegName.ne_status_of_hasStorage {r : RegName} (h : r.hasStorage = true) : r ≠ .status := by
  rintro rfl
  cases h

theorem readOffset_offset (s : State) (r : RegName) : readOffset s r.offset = readReg s r := by
  simp [readOffset]

theorem readOffset_unmapped {off : BitVec 8} (h : regAt off = none) (s : State) : readOffset s off = 0 := by
  simp [readOffset, h]

/-- A name holds the value that was read into it last. -/
@[simp] theorem nameValue_bindName (n : Nat) (v : Word) (s : State) : nameValue (bindName n v s) n = some v := by
  simp [nameValue]

/-- A Host register read changes the Host alone, and the Host then knows what stands at the offset. -/
theorem hostAccess_regRead_spec {off : BitVec 8} (h : off.toNat % 4 = 0) (n : Nat) (s : State) :
    ∃ t, hostAccess (.regRead off 4 n) s = .next t ∧ t = { s with host := t.host }
      ∧ nameValue t n = some (readOffset s off) :=
  ⟨_, hostAccess_regRead h n s, rfl, nameValue_bindName n _ s⟩

/-! ### The register map (10_state.md R23, R45) -/

theorem RegName.mem_all (r : RegName) : r ∈ RegName.all := by
  cases r <;> decide

theorem offset_lt (r : RegName) : r.offset.toNat < 0x7C := by
  cases r <;> decide

theorem regAt_eq_some_iff {off : BitVec 8} {r : RegName} : regAt off = some r ↔ r.offset = off :=
  ⟨offset_of_regAt, fun h => h ▸ regAt_offset r⟩

theorem regAt_eq_none {off : BitVec 8} (h : 0x7C ≤ off.toNat) : regAt off = none := by
  cases hr : regAt off with
  | none => rfl
  | some r =>
    have hlt := offset_lt r
    rw [offset_of_regAt hr] at hlt
    omega

/-! ### The STATUS word (10_state.md R25) -/

theorem toNat_append_ofBool {n : Nat} (v : BitVec n) (b : Bool) :
    (v ++ BitVec.ofBool b).toNat = 2 * v.toNat + b.toNat := by
  rw [BitVec.toNat_append, ← Nat.shiftLeft_add_eq_or_of_lt (BitVec.ofBool b).isLt, BitVec.toNat_ofBool]
  omega

/-- STATUS as a number (10_state.md R25): the three flags in bits 0 to 2, ERR from bit 4 on. -/
theorem statusWord_toNat (s : State) : (statusWord s).toNat
    = 16 * (errField s.err).toNat + 4 * s.wign.toNat + 2 * s.done.toNat + s.busy.toNat := by
  have hhigh : ((0 : BitVec 24) ++ errField s.err).toNat = (errField s.err).toNat := by
    rw [BitVec.toNat_append]
    simp
  have hgap : ((0 : BitVec 24) ++ errField s.err ++ (0 : BitVec 1)).toNat = 2 * (errField s.err).toNat :=
    (toNat_append_ofBool _ false).trans (by rw [hhigh]; rfl)
  unfold statusWord
  rw [toNat_append_ofBool, toNat_append_ofBool, toNat_append_ofBool, hgap]
  omega

/-! ### Values after power-on and reset (10_state.md R48) -/

theorem Regs.zero_get (r : RegName) : Regs.zero.get r = 0 := by
  cases r <;> rfl

/-- Every register reads 0 when no bit is stored and no flag is set. -/
theorem readReg_eq_zero {s : State} (hx : s.x = Regs.zero) (hb : s.busy = false) (hd : s.done = false)
    (hw : s.wign = false) (he : s.err = none) (r : RegName) : readReg s r = 0 := by
  by_cases hr : r = .status
  · subst hr
    simp [readReg, statusWord, hb, hd, hw, he, errField]
  · rw [readReg_of_ne_status hr, hx, Regs.zero_get]

/-! ### The statements -/

/-- Settles O9, by what one step can do to the block and the invariant of each of those updates. -/
theorem stepKeepsInvariant : Obligations.StepKeepsInvariant := by
  intro s t hi h
  cases step_effect h with
  | quiet g ts ht => exact ht ▸ inv_moved hi g ts
  | regWrite g ts off v ht => exact ht ▸ inv_regWrite (inv_moved hi g ts) off v
  | bufWrite g ts a v ha ht => exact ht ▸ inv_bufWrite (inv_moved hi g ts) ha v
  | reset g ts ht => exact ht ▸ inv_of_idle hi rfl rfl rfl
  | engine i ts _ _ ht => exact inv_exec (inv_moved hi s.host ts) ht

/-- Settles O11: of all updates only a BUF write touches HAZ, and it only sets it. -/
theorem hazardMarkIsNeverCleared : Obligations.HazardMarkIsNeverCleared := by
  intro s t h
  cases step_effect h with
  | quiet g ts ht => simp [ht]
  | regWrite g ts off v ht => simp [ht]
  | bufWrite g ts a v _ ht => exact ht ▸ ⟨fun hz => by simp [hz], rfl⟩
  | reset g ts ht => simp [ht]
  | engine i ts _ _ ht => exact ⟨(exec_haz ht).trans, by rw [exec_cfg ht, moved_cfg]⟩

/-- Settles O14: such a step only moves the Host, or is one access of the Host. -/
theorem registersAreFrozenWhileBusy : Obligations.RegistersAreFrozenWhileBusy := by
  intro s t h hb he hr
  obtain ⟨g, ts, rfl⟩ | ⟨a, g, ts, ha⟩ := step_hostSide h he hr
  · exact ⟨rfl, hb, rfl, rfl, rfl, id⟩
  · exact hostAccess_frozen (s := moved s g ts) hb ha

/-- Settles O13: a step that is neither the Engine's nor a reset keeps BUSY (O14), and the Engine's sets DONE. -/
theorem busyEndsByCompletionOrReset : Obligations.BusyEndsByCompletionOrReset := by
  intro s t h hb hb'
  by_cases hr : nextTurn s = some .reset
  · exact .inr hr
  by_cases he : nextTurn s = some .engine
  · obtain ⟨i, -, hx⟩ := step_engine h hb he
    exact .inl ⟨he, exec_done hx⟩
  · obtain ⟨-, hbusy, -⟩ := registersAreFrozenWhileBusy s t h hb he hr
    simp [hb'] at hbusy

/-- Settles O17: the read rule at the register's own offset. -/
theorem registerReadHasNoSideEffect : Obligations.RegisterReadHasNoSideEffect := by
  intro s r n
  obtain ⟨t, ht, hframe, hname⟩ := hostAccess_regRead_spec (offset_aligned r) n s
  rw [readOffset_offset] at hname
  exact ⟨t, ht, hframe, hname, rfl, rfl, fun hs =>
    ⟨readReg_of_ne_status (RegName.ne_status_of_hasStorage hs) s, s.x.get_implemented r⟩⟩

/-- Settles O19, by the access key of the register at the offset. -/
theorem registerWriteWhileIdle : Obligations.RegisterWriteWhileIdle := by
  intro s off v hb ha
  rw [hostAccess_regWrite_idle ha hb]
  refine ⟨fun r hr hrw => ?_, fun hr => ?_, ?_⟩
  · rw [regWriteIdle_rw hr hrw]
    exact ⟨putReg r v s, rfl, rfl, s.x.get_set_self r v, fun r' hne => s.x.get_set_ne hne v⟩
  · rw [regWriteIdle_cmd hr, cmdWrite]
  · rintro (hr | ⟨r, hr, hro⟩)
    · rw [regWriteIdle_unmapped hr]
    · rw [regWriteIdle_ro hr hro]

/-- Settles O10: BUF is empty and BUSY is 0. -/
theorem powerOnMeetsInvariant : Obligations.PowerOnMeetsInvariant := by
  intro c
  refine ⟨⟨List.Pairwise.nil, ?_, ?_, ?_, ?_⟩, rfl⟩
  all_goals simp [State.powerOn]

/-- Settles O18: each field is read off the number in STATUS. -/
theorem statusWordLayout : Obligations.StatusWordLayout := by
  intro s
  have h := statusWord_toNat s
  have herr := (errField s.err).isLt
  have hwign := s.wign.toNat_lt
  have hdone := s.done.toNat_lt
  have hbusy := s.busy.toNat_lt
  refine ⟨?_, ?_, ?_, ?_, ?_, ?_, rfl⟩
  all_goals
    apply BitVec.eq_of_toNat_eq
    simp only [BitVec.extractLsb_toNat, Nat.shiftRight_eq_div_pow, h, BitVec.toNat_ofBool, BitVec.ofNat_eq_ofNat,
      BitVec.toNat_ofNat]
    omega

/-- Settles O20: a write while BUSY is 1 is dropped at every offset. -/
theorem registerWriteWhileBusy : Obligations.RegisterWriteWhileBusy :=
  fun _ _ v hb ha => hostAccess_regWrite_busy ha hb v

/-- Settles O21: such an access is not well formed. -/
theorem undefinedRegisterAccessIsRefused : Obligations.UndefinedRegisterAccessIsRefused := by
  intro s off width n v h
  have hbad : (width == 4 && off.toNat % 4 == 0) = false := by
    rcases h with h | h <;> simp [h]
  constructor
  · simp [hostAccess, HostAccess.wellFormed, hbad]
  · simp [hostAccess, HostAccess.wellFormed, hbad]

/-- Settles O22: no register stands at or above 0x7C. -/
theorem unmappedOffsetsReadZero : Obligations.UnmappedOffsetsReadZero := by
  intro s off v n ha hoff
  have hnone := regAt_eq_none hoff
  refine ⟨?_, fun hb => ?_, fun hb => hostAccess_regWrite_busy ha hb v⟩
  · rw [← readOffset_unmapped hnone s]
    exact hostAccess_regRead_spec ha n s
  · rw [hostAccess_regWrite_idle ha hb, regWriteIdle_unmapped hnone]

/-- Settles O24: in both states no bit is stored and no flag is set. -/
theorem resetValues : Obligations.ResetValues :=
  ⟨fun _ r => ⟨readReg_eq_zero rfl rfl rfl rfl rfl r, rfl, rfl, rfl, fun _ => rfl⟩,
    fun _ r => ⟨readReg_eq_zero rfl rfl rfl rfl rfl r, rfl, rfl, rfl, rfl⟩⟩

/-- Settles O60: the written-out table is the list of all registers with their offsets and keys. -/
theorem registerMapFollowsTheTable : Obligations.RegisterMapFollowsTheTable := by
  unfold Obligations.RegisterMapFollowsTheTable
  intro table
  have htable : table = RegName.all.map fun r => (r.offset, r, r.access) := rfl
  refine ⟨fun off r k => ?_, regAt_offset, windowOffset_registerAddress, fun _ _ _ => windowOffset_eq_some⟩
  rw [htable, regAt_eq_some_iff]
  simp [RegName.mem_all]

end Sys2Proof.Machine
end

section
/-! PROOFS. What a step does to BUF, what the result of a command depends on, and the statements of 20_memory.md. -/

namespace Sys2Proof.Machine

/-! ### Host accesses to BUF (20_memory.md R60, R67) -/

theorem hostAccess_bufRead {w : Word} {s : State} (h : w.toNat < s.cfg.bufSize) (n : Nat) :
    hostAccess (.bufRead w n) s = .next (bindName n ((s.buf.byteAt w.toNat).setWidth 32) s) := if_pos h

theorem hostAccess_bufWrite {w : Word} {s : State} (h : w.toNat < s.cfg.bufSize) (v : Byte) :
    hostAccess (.bufWrite w v) s = .next (bufWrite w.toNat v s) := if_pos h

theorem hostAccess_bufRead_fault {w : Word} {s : State} (h : s.cfg.bufSize ≤ w.toNat) (n : Nat) :
    hostAccess (.bufRead w n) s = .fault .bufAddress := if_neg (Nat.not_lt.2 h)

theorem hostAccess_bufWrite_fault {w : Word} {s : State} (h : s.cfg.bufSize ≤ w.toNat) (v : Byte) :
    hostAccess (.bufWrite w v) s = .fault .bufAddress := if_neg (Nat.not_lt.2 h)

/-! ### What a step does to BUF -/

@[simp] theorem regWrite_buf (off : BitVec 8) (v : Word) (s : State) : (regWrite off v s).buf = s.buf := by
  obtain h | h | ⟨-, h⟩ | h | ⟨r, h⟩ := regWrite_cases off v s <;> simp [h]

/-- A guarded answer that is a next state is the guarded one. -/
theorem eq_of_ite_next {p : Prop} [Decidable p] {x t : State} {r : Result} (h : (if p then .next x else r) = .next t)
    (hr : ∀ u, r ≠ .next u) : t = x := by
  split at h
  · cases h
    rfl
  · exact absurd h (hr t)

/-- An access changes BUF only if it is a byte write, and then as that write says. -/
theorem hostAccess_buf {a : HostAccess} {s t : State} (h : hostAccess a s = .next t) :
    t.buf = s.buf ∨ ∃ w v, a = .bufWrite w v ∧ t.buf = s.buf.write w.toNat v := by
  cases a with
  | regRead off width n => exact .inl (by rw [eq_of_ite_next h fun _ => nofun, bindName_buf])
  | regWrite off width v => exact .inl (by rw [eq_of_ite_next h fun _ => nofun, regWrite_buf])
  | bufRead w n => exact .inl (by rw [eq_of_ite_next h fun _ => nofun, bindName_buf])
  | bufWrite w v => exact .inr ⟨w, v, rfl, by rw [eq_of_ite_next h fun _ => nofun, bufWrite_buf]⟩

/-- A statement changes BUF only if it is `sb` (30_encoding.md R92). -/
theorem hostStmt_buf {st : HostStmt} {s t : State} (h : hostStmt st s = .next t) :
    t.buf = s.buf ∨ ∃ w v, st = .sb w v ∧ t.buf = s.buf.write w.toNat v := by
  have access {a : HostAccess} (ha : hostAccess a (hostNext s) = .next t) (hne : ∀ w v, a ≠ .bufWrite w v) :
      t.buf = s.buf := (hostAccess_buf ha).resolve_right fun ⟨w, v, hw, _⟩ => hne w v hw
  have branch {c n l} (hb : hostBranch c n l s = .next t) : t.buf = s.buf := by
    obtain ⟨g, rfl⟩ := hostBranch_next hb
    rfl
  cases st with
  | wr r v => exact .inl (access (a := .regWrite r.offset 4 v) h fun _ _ => nofun)
  | rd r n => exact .inl (access (a := .regRead r.offset 4 n) h fun _ _ => nofun)
  | sb w v =>
    obtain hbuf | ⟨w', v', ha, hbuf⟩ := hostAccess_buf (a := .bufWrite w v) h
    · exact .inl hbuf
    · cases ha
      exact .inr ⟨w, v, rfl, hbuf⟩
  | cmd i => exact .inl (access (a := .regWrite RegName.cmd.offset 4 (encode i)) h fun _ _ => nofun)
  | label l =>
    cases h
    exact .inl rfl
  | bbusy n l => exact .inl (branch h)
  | berr n l => exact .inl (branch h)
  | halt =>
    cases h
    exact .inl rfl

theorem hostStep_buf {s t : State} (h : hostStep s = .next t) :
    t.buf = s.buf ∨ ∃ w v, s.host.prog[s.host.pc]? = some (.sb w v) ∧ t.buf = s.buf.write w.toNat v := by
  unfold hostStep at h
  split at h
  · cases h
    exact .inl rfl
  · split at h
    · rename_i st hst
      rw [hst]
      exact (hostStmt_buf h).imp_right fun ⟨w, v, hs, hbuf⟩ => ⟨w, v, congrArg some hs, hbuf⟩
    · cases h
      exact .inl rfl

/-- The Engine's turn leaves BUF alone (20_memory.md R60). -/
theorem takeTurn_engine_buf {s t : State} (h : takeTurn .engine s = .next t) : t.buf = s.buf := by
  simp only [takeTurn] at h
  split at h
  · unfold engineStep at h
    split at h
    · exact exec_buf h
    · cases h
  · cases h
    rfl

/-- One step leaves BUF alone or is the Host's byte write, by an access or by an `sb` statement. -/
theorem step_buf {s t : State} (h : step s = .next t) :
    t.buf = s.buf ∨ ∃ w v, t.buf = s.buf.write w.toNat v
      ∧ (nextTurn s = some (.access (.bufWrite w v))
        ∨ (nextTurn s = some .host ∧ s.host.prog[s.host.pc]? = some (.sb w v))) := by
  cases hn : nextTurn s with
  | none =>
    rw [step_of_noTurn hn] at h
    cases h
    exact .inl rfl
  | some u =>
    rw [step_of_nextTurn hn] at h
    cases u with
    | engine => exact .inl (takeTurn_engine_buf (s := dropTurn s) h)
    | host => exact (hostStep_buf h).imp_right fun ⟨w, v, hst, hbuf⟩ => ⟨w, v, hbuf, .inr ⟨rfl, hst⟩⟩
    | access a =>
      obtain hbuf | ⟨w, v, rfl, hbuf⟩ := hostAccess_buf h
      · exact .inl hbuf
      · exact .inr ⟨w, v, hbuf, .inl rfl⟩
    | reset =>
      cases h
      exact .inl rfl

/-! ### The result of a command (30_encoding.md R87) -/

/-- `Exec` of a command apart from its completion: the error, or the register writes. -/
def commandResult (i : Instr) (s : State) : Except ErrCode Commit :=
  match i with
  | .beOctets8 => .ok (beOctetsCommit 8 s.x)
  | .beOctets16 => .ok (beOctetsCommit 16 s.x)
  | .beOctets32 => .ok (beOctetsCommit 32 s.x)
  | .beOctets64 => .ok (beOctetsCommit 64 s.x)
  | .sum => (dataTotal s.x.acc.toNat s).map fun t => [(.acc, BitVec.ofNat 32 t)]
  | .finalize => .ok [(.result, (finalizeSum s.x.acc.toNat).setWidth 32)]
  | .checksum => (dataTotal 0 s).map checksumCommit
  | .ipv4Checksum => (pseudoTotal (pseudoV4 s.x) s).map checksumCommit
  | .ipv6Checksum => (pseudoTotal (pseudoV6 s.x) s).map checksumCommit
  | .macFormat => .ok (macFormatCommit s.x)
  | .macParse => if ¬ textInRange s then .error .bufRange else (parseMac (textBytes s)).map macParseCommit

/-- Every command is the completion of its result. -/
theorem exec_eq_complete (i : Instr) (s : State) : exec i s = complete (commandResult i s) s := by
  cases i <;> rfl

theorem map_ok_names {α : Type} {r : Except ErrCode α} {f : α → Commit} {l : List RegName} {c : Commit}
    (hf : ∀ a, (f a).map (·.1) = l) (h : r.map f = .ok c) : c.map (·.1) = l := by
  cases r with
  | error e => cases h
  | ok a =>
    cases h
    exact hf a

/-- A command without an error writes the registers of 30_encoding.md R89. -/
theorem commandResult_names {i : Instr} {s : State} {c : Commit} (h : commandResult i s = .ok c) :
    c.map (·.1) = writesOf i := by
  cases i with
  | beOctets8 => cases h; rfl
  | beOctets16 => cases h; rfl
  | beOctets32 => cases h; rfl
  | beOctets64 => cases h; rfl
  | sum => exact map_ok_names (fun _ => rfl) h
  | finalize => cases h; rfl
  | checksum => exact map_ok_names (fun _ => rfl) h
  | ipv4Checksum => exact map_ok_names (fun _ => rfl) h
  | ipv6Checksum => exact map_ok_names (fun _ => rfl) h
  | macFormat => cases h; rfl
  | macParse =>
    simp only [commandResult] at h
    split at h
    · cases h
    · exact map_ok_names (fun _ => rfl) h

/-! ### What the result depends on (20_memory.md R71; 30_encoding.md R89) -/

/-- Two states that command `i` cannot tell apart: same `BUF_SIZE`, same operand registers, same bytes of the read set. -/
structure SameOperands (i : Instr) (s s' : State) : Prop where
  size : s.cfg.bufSize = s'.cfg.bufSize
  regs : ∀ r ∈ readsOf i, s.x.get r = s'.x.get r
  mem : ∀ a, inReadSet i s.x a = true → s.buf.byteAt a = s'.buf.byteAt a

namespace SameOperands

variable {i : Instr} {s s' : State}

/-- A buffer of the read set holds the same bytes. -/
theorem bytes_eq (h : SameOperands i s s') {base len base' len' : Word} (hd : (base, len) ∈ readSet i s.x)
    (hbase : base = base') (hlen : len = len') : bytes s.buf base len = bytes s'.buf base' len' := by
  subst hbase hlen
  exact bytes_congr fun a ha => h.mem a (List.any_eq_true.2 ⟨_, hd, ha⟩)

theorem inRange_iff (h : SameOperands i s s') (base len : Word) : inRange s.cfg base len ↔ inRange s'.cfg base len := by
  rw [inRange, inRange, h.size]

theorem dataTotal_eq (h : SameOperands i s s') (hr : [.dataBase, .dataLen, .skip] ⊆ readsOf i)
    (hd : (s.x.dataBase, s.x.dataLen) ∈ readSet i s.x) (seed : Nat) : dataTotal seed s = dataTotal seed s' := by
  have hbase : s.x.dataBase = s'.x.dataBase := h.regs .dataBase (hr (by decide))
  have hlen : s.x.dataLen = s'.x.dataLen := h.regs .dataLen (hr (by decide))
  have hskip : s.x.skip = s'.x.skip := h.regs .skip (hr (by decide))
  have hdata : dataBytes s = dataBytes s' := h.bytes_eq hd hbase hlen
  simp only [dataTotal, dataInRange, h.inRange_iff, hdata, hbase, hlen, hskip]

theorem pseudoTotal_eq (h : SameOperands i s s') (hr : [.dataBase, .dataLen, .skip, .extraBase, .extraLen] ⊆ readsOf i)
    (hd : (s.x.dataBase, s.x.dataLen) ∈ readSet i s.x) (he : (s.x.extraBase, s.x.extraLen) ∈ readSet i s.x) (p : Nat) :
    pseudoTotal p s = pseudoTotal p s' := by
  have hbase : s.x.dataBase = s'.x.dataBase := h.regs .dataBase (hr (by decide))
  have hlen : s.x.dataLen = s'.x.dataLen := h.regs .dataLen (hr (by decide))
  have hskip : s.x.skip = s'.x.skip := h.regs .skip (hr (by decide))
  have hebase : s.x.extraBase = s'.x.extraBase := h.regs .extraBase (hr (by decide))
  have helen : s.x.extraLen = s'.x.extraLen := h.regs .extraLen (hr (by decide))
  have hdata : dataBytes s = dataBytes s' := h.bytes_eq hd hbase hlen
  have hextra : extraBytes s = extraBytes s' := h.bytes_eq he hebase helen
  simp only [pseudoTotal, bodySum, dataInRange, extraInRange, h.inRange_iff, hdata, hextra, hbase, hlen, hskip,
    hebase, helen]

theorem protoAndLength_eq (h : SameOperands i s s') (hr : [.proto, .dataLen, .extraLen] ⊆ readsOf i) :
    protoAndLength s.x = protoAndLength s'.x := by
  have hproto : s.x.proto = s'.x.proto := by
    simpa [Regs.get] using congrArg (BitVec.setWidth 8) (h.regs .proto (hr (by decide)))
  have hlen : s.x.dataLen = s'.x.dataLen := h.regs .dataLen (hr (by decide))
  have helen : s.x.extraLen = s'.x.extraLen := h.regs .extraLen (hr (by decide))
  simp only [protoAndLength, hproto, hlen, helen]

theorem pseudoV4_eq (h : SameOperands .ipv4Checksum s s') : pseudoV4 s.x = pseudoV4 s'.x := by
  have hsrc : s.x.src0 = s'.x.src0 := h.regs .src0 (by decide)
  have hdst : s.x.dst0 = s'.x.dst0 := h.regs .dst0 (by decide)
  simp only [pseudoV4, h.protoAndLength_eq (by decide), hsrc, hdst]

theorem pseudoV6_eq (h : SameOperands .ipv6Checksum s s') : pseudoV6 s.x = pseudoV6 s'.x := by
  have haddr : ([.src0, .dst0, .src1, .dst1, .src2, .dst2, .src3, .dst3].map s.x.get)
      = [.src0, .dst0, .src1, .dst1, .src2, .dst2, .src3, .dst3].map s'.x.get :=
    List.map_congr_left fun r hr => h.regs r (by revert r; decide)
  exact congrArg₂ (fun l n => (l.map addrWords).sum + n) haddr (h.protoAndLength_eq (by decide))

theorem octIn_eq (h : SameOperands i s s') (hr : [.octInHi, .octInLo] ⊆ readsOf i) : octIn s.x = octIn s'.x := by
  have hhi : s.x.octInHi = s'.x.octInHi := h.regs .octInHi (hr (by decide))
  have hlo : s.x.octInLo = s'.x.octInLo := h.regs .octInLo (hr (by decide))
  simp only [octIn, hhi, hlo]

theorem beOctetsCommit_eq (h : SameOperands i s s') (hr : [.octInHi, .octInLo] ⊆ readsOf i) (n : Nat) :
    beOctetsCommit n s.x = beOctetsCommit n s'.x := by
  simp only [beOctetsCommit, h.octIn_eq hr]

theorem macOctets_eq (h : SameOperands .macFormat s s') : macOctets s.x = macOctets s'.x := by
  have hhi : s.x.macHi = s'.x.macHi := h.regs .macHi (by decide)
  have hlo := h.regs .macLo (by decide)
  simp only [macOctets, hhi, hlo]

/-- A command's result is a function of its operand registers, `BUF_SIZE` and the bytes of its read set. -/
theorem commandResult_eq (h : SameOperands i s s') : commandResult i s = commandResult i s' := by
  cases i with
  | beOctets8 => exact congrArg Except.ok (h.beOctetsCommit_eq (by decide) 8)
  | beOctets16 => exact congrArg Except.ok (h.beOctetsCommit_eq (by decide) 16)
  | beOctets32 => exact congrArg Except.ok (h.beOctetsCommit_eq (by decide) 32)
  | beOctets64 => exact congrArg Except.ok (h.beOctetsCommit_eq (by decide) 64)
  | sum =>
    have hacc : s.x.acc = s'.x.acc := h.regs .acc (by decide)
    simp only [commandResult, hacc, h.dataTotal_eq (by decide) (List.mem_singleton_self _)]
  | finalize =>
    have hacc : s.x.acc = s'.x.acc := h.regs .acc (by decide)
    simp only [commandResult, hacc]
  | checksum => simp only [commandResult, h.dataTotal_eq (by decide) (List.mem_singleton_self _)]
  | ipv4Checksum =>
    simp only [commandResult, h.pseudoV4_eq, h.pseudoTotal_eq (by decide) (.head _) (.tail _ (.head _))]
  | ipv6Checksum =>
    simp only [commandResult, h.pseudoV6_eq, h.pseudoTotal_eq (by decide) (.head _) (.tail _ (.head _))]
  | macFormat => simp only [commandResult, macFormatCommit, h.macOctets_eq]
  | macParse =>
    have hbase : s.x.textBase = s'.x.textBase := h.regs .textBase (by decide)
    have hlen : s.x.textLen = s'.x.textLen := h.regs .textLen (by decide)
    have htext : textBytes s = textBytes s' := h.bytes_eq (List.mem_singleton_self _) hbase hlen
    simp only [commandResult, textInRange, h.inRange_iff, htext, hbase, hlen]

/-- The two completions end in the same error, or apply the same writes to the two register files. -/
theorem exec_same (h : SameOperands i s s') {t t' : State} (ht : exec i s = .next t) (ht' : exec i s' = .next t') :
    (∃ c : Commit, c.map (·.1) = writesOf i ∧ t.err = none ∧ t'.err = none ∧ t.x = s.x.commit c ∧ t'.x = s'.x.commit c)
      ∨ ∃ e, t.err = some e ∧ t'.err = some e ∧ t.x = s.x ∧ t'.x = s'.x := by
  rw [exec_eq_complete] at ht ht'
  rw [← h.commandResult_eq] at ht'
  have hz := (complete_next ht).1
  have hz' := (complete_next ht').1
  cases hr : commandResult i s with
  | ok c =>
    rw [hr, complete_ok hz] at ht
    rw [hr, complete_ok hz'] at ht'
    cases ht
    cases ht'
    exact .inl ⟨c, commandResult_names hr, rfl, rfl, rfl, rfl⟩
  | error e =>
    rw [hr, complete_error hz] at ht
    rw [hr, complete_error hz'] at ht'
    cases ht
    cases ht'
    exact .inr ⟨e, rfl, rfl, rfl, rfl⟩

end SameOperands

/-! ### Accesses between the issue and the completion (20_memory.md R73, R75, R76) -/

/-- A defined access that writes no byte of the read set of command `i`, issued in state `s`. -/
def Harmless (i : Instr) (s : State) : HostAccess → Prop
  | .bufRead w _ => w.toNat < s.cfg.bufSize
  | .bufWrite w _ => w.toNat < s.cfg.bufSize ∧ inReadSet i s.x w.toNat = false
  | .regRead off width n => (HostAccess.regRead off width n).wellFormed = true
  | .regWrite off width v => (HostAccess.regWrite off width v).wellFormed = true

/-- In state `s'` command `i`, issued in state `s`, is still in flight with the operands it had there, and no hazard. -/
structure StillPending (i : Instr) (s s' : State) : Prop where
  busy : s'.busy = true
  pend : decode s'.pend = .ok i
  haz : s'.haz = false
  cfg : s'.cfg = s.cfg
  x : s'.x = s.x
  mem : ∀ a, inReadSet i s.x a = true → s'.buf.byteAt a = s.buf.byteAt a

theorem StillPending.sameOperands {i : Instr} {s s' : State} (h : StillPending i s s') : SameOperands i s s' where
  size := by rw [h.cfg]
  regs r _ := by rw [h.x]
  mem a ha := (h.mem a ha).symm

/-- The Host, the schedule and WIGN are no part of a pending command. -/
theorem StillPending.with_host {i : Instr} {s s' : State} (h : StillPending i s s') (g : HostAgent) (ts : List Turn)
    (w : Bool) : StillPending i s { s' with host := g, turns := ts, wign := w } :=
  ⟨h.busy, h.pend, h.haz, h.cfg, h.x, h.mem⟩

theorem StillPending.inPendingReadSet_eq {i : Instr} {s s' : State} (h : StillPending i s s') (a : Nat) :
    inPendingReadSet s' a = inReadSet i s.x a := by
  simp [inPendingReadSet, h.busy, h.pend, h.x]

/-- A write outside the read set neither reaches an operand nor raises the hazard. -/
theorem StillPending.after_bufWrite {i : Instr} {s s' : State} (h : StillPending i s s') {a : Nat}
    (ha : inReadSet i s.x a = false) (v : Byte) : StillPending i s (bufWrite a v s') where
  busy := h.busy
  pend := h.pend
  haz := by rw [bufWrite_haz, h.inPendingReadSet_eq, ha, h.haz]; rfl
  cfg := h.cfg
  x := h.x
  mem b hb := by
    have hne : a ≠ b := by
      rintro rfl
      simp [ha] at hb
    rw [bufWrite_buf, Memory.byteAt_write_other _ hne, h.mem b hb]

/-- A harmless access completes and leaves the command in flight. -/
theorem StillPending.after_hostAccess {i : Instr} {s s' : State} (h : StillPending i s s') {a : HostAccess}
    (ha : Harmless i s a) : ∃ t, hostAccess a s' = .next t ∧ StillPending i s t ∧ t.turns = s'.turns := by
  cases a with
  | regRead off width n => exact ⟨_, if_pos ha, h.with_host _ _ _, rfl⟩
  | regWrite off width v =>
    refine ⟨_, if_pos ha, ?_⟩
    rw [regWrite_of_busy h.busy]
    exact ⟨h.with_host _ _ _, rfl⟩
  | bufRead w n =>
    exact ⟨_, hostAccess_bufRead (h.cfg ▸ ha) n, h.with_host _ _ _, rfl⟩
  | bufWrite w v =>
    obtain ⟨hw, hout⟩ := ha
    exact ⟨_, hostAccess_bufWrite (h.cfg ▸ hw) v, h.after_bufWrite hout v, rfl⟩

theorem nextTurn_cons {s : State} {u : Turn} {ts : List Turn} (h : s.turns = u :: ts) : nextTurn s = some u := by
  simp [nextTurn, h]

theorem run_succ_of_step (M : Host.Core) {s t : M.State} (h : M.step s = .next t) (k : Nat) :
    M.run (k + 1) s = M.run k t := by
  simp only [Host.Core.run, h]

/-- Harmless accesses and then the Engine's turn end in the completion of the command, from a state that still has its
operands. -/
theorem StillPending.run_completes {i : Instr} {s : State} (l : List HostAccess) (hl : ∀ a ∈ l, Harmless i s a) {s' : State}
    (h : StillPending i s s') (hturns : s'.turns = l.map .access ++ [.engine]) :
    ∃ q t, StillPending i s q ∧ exec i q = .next t ∧ core.run (l.length + 1) s' = .next t := by
  have hdrop : StillPending i s (dropTurn s') := h.with_host _ _ _
  induction l generalizing s' with
  | nil =>
    obtain ⟨t, ht⟩ := exec_completes i hdrop.haz
    have hstep : step s' = .next t := by
      rw [step_of_nextTurn (nextTurn_cons hturns)]
      simpa [takeTurn, h.busy, engineStep, h.pend] using ht
    exact ⟨_, t, hdrop, ht, run_succ_of_step core hstep 0⟩
  | cons a l ih =>
    obtain ⟨t₁, hacc, hpending, hrest⟩ := hdrop.after_hostAccess (hl a (.head _))
    have hstep : step s' = .next t₁ := by
      rw [step_of_nextTurn (nextTurn_cons hturns)]
      exact hacc
    obtain ⟨q, t, hq, hexec, hrun⟩ :=
      ih (fun b hb => hl b (.tail _ hb)) hpending (by rw [hrest, dropTurn_turns, hturns]; rfl)
        (hpending.with_host _ _ _)
    exact ⟨q, t, hq, hexec, (run_succ_of_step core hstep _).trans hrun⟩

/-! ### The statements -/

/-- Settles O15: the accesses leave the operands as they were at the issue, and the result depends on nothing else. -/
theorem interleavedAccessesKeepTheResult : Obligations.InterleavedAccessesKeepTheResult := by
  intro s i l hb hd hz hwf hread hwrite
  have hharmless : ∀ a ∈ l, Harmless i s a := by
    intro a ha
    cases a with
    | regRead off width n => exact hwf _ ha
    | regWrite off width v => exact hwf _ ha
    | bufRead w n => exact hread w n ha
    | bufWrite w v => exact hwrite w v ha
  have hstart : StillPending i s { s with turns := l.map .access ++ [.engine] } :=
    ⟨hb, hd, hz, rfl, rfl, fun _ _ => rfl⟩
  obtain ⟨q, t, hq, hexec, hrun⟩ := hstart.run_completes l hharmless rfl
  obtain ⟨u, hu⟩ := exec_completes i hz
  have hresult : t.x = u.x ∧ t.err = u.err := by
    obtain ⟨c, -, hue, hte, hux, htx⟩ | ⟨e, hue, hte, hux, htx⟩ := hq.sameOperands.exec_same hu hexec
    · exact ⟨by rw [htx, hux, hq.x], hte.trans hue.symm⟩
    · exact ⟨by rw [htx, hux, hq.x], hte.trans hue.symm⟩
  exact ⟨t, u, hrun, hu, hresult.1, hresult.2, (exec_haz hexec).trans hq.haz, exec_busy hexec, exec_done hexec⟩

/-- Settles O16: the two states give the same result, so the same error or the same writes. -/
theorem commandReadsOnlyItsOperands : Obligations.CommandReadsOnlyItsOperands := by
  intro i s s' t t' hsize hregs hmem ht ht'
  have hsame : SameOperands i s s' := ⟨hsize, hregs, hmem⟩
  obtain ⟨c, hnames, he, he', hx, hx'⟩ | ⟨e, he, he', -, -⟩ := hsame.exec_same ht ht'
  · refine ⟨he.trans he'.symm, fun _ r hr => ?_⟩
    rw [hx, hx']
    exact Regs.get_commit_mem c s.x s'.x (hnames ▸ hr)
  · exact ⟨he.trans he'.symm, fun hnone => by simp [he] at hnone⟩

/-- Settles O12: a step leaves BUF alone or is the Host's byte write, which changes its own location only. -/
theorem bufChangesOnlyByHostWrites : Obligations.BufChangesOnlyByHostWrites := by
  intro s t a h hne
  obtain hbuf | ⟨w, v, hbuf, hturn⟩ := step_buf h
  · exact absurd (by rw [hbuf]) hne
  · rw [hbuf] at hne ⊢
    have ha : w.toNat = a := by
      by_contra hother
      exact hne (Memory.byteAt_write_other s.buf hother v)
    exact ⟨w, v, ha, ha ▸ Memory.byteAt_write_same s.buf a v, hturn⟩

/-- Settles O26, by what a BUF location holds after a write there and elsewhere. -/
theorem bufWriteStoresOneByte : Obligations.BufWriteStoresOneByte := by
  intro s w v n
  refine ⟨fun hw => ⟨bufWrite w.toNat v s, hostAccess_bufWrite hw v, ?_, fun a ha => ?_, _,
    hostAccess_bufRead (s := bufWrite w.toNat v s) hw n, ?_, rfl⟩,
    fun hw => ⟨hostAccess_bufWrite_fault hw v, hostAccess_bufRead_fault hw n⟩⟩
  · exact s.buf.byteAt_write_same _ v
  · exact s.buf.byteAt_write_other ha.symm v
  · rw [nameValue_bindName, bufWrite_buf, s.buf.byteAt_write_same]

end Sys2Proof.Machine
end

section
/-! PROOFS. Decoding both ways, the CMD write, the Engine's step, the frame of every command, and the run of
`run M -> n; halt`: the statements of 30_encoding.md. -/

namespace Sys2Proof

/-! ### Words and fields (30_encoding.md R80, R90) -/

/-- The three fields of a word make up the word. -/
theorem CmdFields.toWord_ofWord (v : Word) : (CmdFields.ofWord v).toWord = v := by
  have hhigh : v.extractLsb' 10 22 ++ v.extractLsb' 8 2 = v.extractLsb' 8 24 :=
    BitVec.extractLsb'_append_extractLsb'_eq_extractLsb' rfl
  have hall : v.extractLsb' 8 24 ++ v.extractLsb' 0 8 = v.extractLsb' 0 32 :=
    BitVec.extractLsb'_append_extractLsb'_eq_extractLsb' rfl
  calc (CmdFields.ofWord v).toWord
      = v.extractLsb' 10 22 ++ v.extractLsb' 8 2 ++ v.extractLsb' 0 8 := rfl
    _ = v := by rw [hhigh, hall, BitVec.extractLsb'_eq_self]

theorem beOctetsOfSelector_opcode (w : BitVec 2) : (beOctetsOfSelector w).opcode = 0x01 := by
  revert w
  decide

theorem beOctetsOfSelector_selector (w : BitVec 2) : (beOctetsOfSelector w).selector = w := by
  revert w
  decide

/-- Fields that decode to a command are that command's fields: RSV 0, its selector, its opcode. -/
theorem fields_of_decodeFields {f : CmdFields} {i : Instr} (h : decodeFields f = .ok i) :
    f = ⟨0, i.selector, i.opcode⟩ := by
  obtain ⟨rsv, w, op⟩ := f
  unfold decodeFields at h
  split at h
  · cases h
  · rename_i hrsv
    split at h
    · rename_i hop
      cases h
      rw [beOctetsOfSelector_opcode, beOctetsOfSelector_selector, ← hop, ← not_not.1 hrsv]
    · split at h
      · cases h
      · rename_i hw
        have hplain : rsv = 0 ∧ w = 0 := ⟨not_not.1 hrsv, not_not.1 hw⟩
        obtain ⟨rfl, rfl⟩ := hplain
        repeat' split at h
        all_goals cases h
        all_goals
          subst_vars
          rfl

/-- Decoding inverts encoding (30_encoding.md R83). -/
@[simp] theorem decode_encode (i : Instr) : decode (encode i) = .ok i := by
  open Laws.EncodedWord in
  cases i with
  | beOctets8 => exact (beOctets8 rfl).1
  | beOctets16 => exact (beOctets16 rfl).1
  | beOctets32 => exact (beOctets32 rfl).1
  | beOctets64 => exact (beOctets64 rfl).1
  | sum => exact (sum rfl).1
  | finalize => exact (finalize rfl).1
  | checksum => exact (checksum rfl).1
  | ipv4Checksum => exact (ipv4Checksum rfl).1
  | ipv6Checksum => exact (ipv6Checksum rfl).1
  | macFormat => exact (macFormat rfl).1
  | macParse => exact (macParse rfl).1

theorem decode_eq_ok_iff {v : Word} {i : Instr} : decode v = .ok i ↔ v = encode i := by
  constructor
  · intro h
    rw [← CmdFields.toWord_ofWord v, fields_of_decodeFields h, encode]
  · rintro rfl
    exact decode_encode i

/-! ### Legal words (30_encoding.md R83) -/

theorem isLegal_iff_decode {v : Word} : isLegal v = true ↔ ∃ i, decode v = .ok i := by
  unfold isLegal
  cases decode v <;> simp

theorem isLegal_iff_encode {v : Word} : isLegal v = true ↔ ∃ i, encode i = v := by
  simp only [isLegal_iff_decode, decode_eq_ok_iff]
  exact exists_congr fun _ => eq_comm

theorem isLegal_encode (i : Instr) : isLegal (encode i) = true := isLegal_iff_encode.2 ⟨i, rfl⟩

/-- Every command, in the order of 30_encoding.md R83. -/
def Instr.all : List Instr :=
  [.beOctets8, .beOctets16, .beOctets32, .beOctets64, .sum, .finalize, .checksum, .ipv4Checksum, .ipv6Checksum,
    .macFormat, .macParse]

theorem Instr.mem_all (i : Instr) : i ∈ Instr.all := by
  cases i <;> decide

/-- The eleven words that 30_encoding.md R83 lists are the words of the commands. -/
theorem encode_all : Instr.all.map encode = [0x001, 0x101, 0x201, 0x301, 0x2, 0x3, 0x4, 0x5, 0x6, 0x7, (0x8 : Word)] :=
  rfl

theorem isLegal_iff_mem {v : Word} :
    isLegal v = true ↔ v ∈ [0x001, 0x101, 0x201, 0x301, 0x2, 0x3, 0x4, 0x5, 0x6, 0x7, (0x8 : Word)] := by
  simp only [isLegal_iff_encode, ← encode_all, List.mem_map, Instr.mem_all, true_and]

namespace Machine

/-! ### The CMD write (30_encoding.md R85, R86) -/

theorem cmdWrite_encode (i : Instr) (s : State) : cmdWrite (encode i) s = issue (encode i) s :=
  if_pos (isLegal_encode i)

theorem cmdWrite_illegal {v : Word} (h : ¬ isLegal v = true) (s : State) : cmdWrite v s = rejectWord s := if_neg h

theorem hostAccess_cmd_idle {s : State} (hb : s.busy = false) (v : Word) :
    hostAccess (.regWrite 0x00 4 v) s = .next (cmdWrite v s) := by
  rw [hostAccess_regWrite_idle rfl hb, regWriteIdle_cmd rfl]

/-! ### The Engine's step (30_encoding.md R87) -/

/-- The Engine's step runs the command that PEND holds. -/
theorem step_eq_exec {s : State} {i : Instr} (hb : s.busy = true) (hd : decode s.pend = .ok i)
    (he : nextTurn s = some .engine) : step s = exec i (dropTurn s) := by
  simp [step_of_nextTurn he, takeTurn, hb, engineStep, hd]

/-- With an empty schedule the Engine goes first (log entry 4). -/
theorem nextTurn_default_engine {s : State} (hb : s.busy = true) (ht : s.turns = []) : nextTurn s = some .engine := by
  simp [nextTurn, hb, ht]

theorem dropTurn_of_nil {s : State} (h : s.turns = []) : dropTurn s = s :=
  congrArg (moved s s.host) (by rw [h, List.tail_nil])

/-! ### The frame of every command (30_encoding.md R89) -/

/-- A command that answers a next state changes its destinations, ERR, BUSY and DONE only. -/
theorem exec_keeps {i : Instr} {s t : State} (h : exec i s = .next t) :
    (∀ r, r ∉ writesOf i → t.x.get r = s.x.get r)
      ∧ t.busy = false ∧ t.done = true ∧ t.wign = s.wign ∧ t.pend = s.pend ∧ t.haz = s.haz
      ∧ t.cfg = s.cfg ∧ t.host = s.host ∧ t.turns = s.turns ∧ ∀ a, t.buf.byteAt a = s.buf.byteAt a := by
  obtain ⟨-, ⟨c, hc, rfl⟩ | ⟨e, rfl⟩⟩ := exec_next h
  · exact ⟨fun r hr => Regs.get_commit_notMem c s.x (hc ▸ hr), rfl, rfl, rfl, rfl, rfl, rfl, rfl, rfl, fun _ => rfl⟩
  · exact ⟨fun _ _ => rfl, rfl, rfl, rfl, rfl, rfl, rfl, rfl, rfl, fun _ => rfl⟩

/-! ### A command does not see the Host or the schedule (60_exceptions.md R207; log entry 5) -/

theorem complete_moved {r : Except ErrCode Commit} {s u : State} (h : complete r s = .next u) (g : HostAgent)
    (ts : List Turn) : complete r (moved s g ts) = .next (moved u g ts) := by
  obtain ⟨hz, ⟨c, rfl, rfl⟩ | ⟨e, rfl, rfl⟩⟩ := complete_next h
  · exact complete_ok (s := moved s g ts) hz c
  · exact complete_error (s := moved s g ts) hz e

theorem exec_moved {i : Instr} {s u : State} (h : exec i s = .next u) (g : HostAgent) (ts : List Turn) :
    exec i (moved s g ts) = .next (moved u g ts) := by
  have hsame : SameOperands i (moved s g ts) s := ⟨rfl, fun _ _ => rfl, fun _ _ => rfl⟩
  rw [exec_eq_complete, hsame.commandResult_eq]
  rw [exec_eq_complete] at h
  exact complete_moved h g ts

/-! ### The run of `run M -> n; halt` (30_encoding.md R93, R95) -/

/-- On an idle block with an empty schedule the Host executes its next statement (log entry 4). -/
theorem step_hostStmt {s : State} {st : HostStmt} (hb : s.busy = false) (ht : s.turns = [])
    (hh : s.host.halted = false) (hst : s.host.prog[s.host.pc]? = some st) : step s = hostStmt st s := by
  have hready : hostReady s = true := by
    obtain ⟨hlt, -⟩ := List.getElem?_eq_some_iff.1 hst
    simp [hostReady, hh, hlt]
  have hturn : nextTurn s = some .host := by simp [nextTurn, ht, hb, hready]
  simp [step_of_nextTurn hturn, dropTurn_of_nil ht, takeTurn, hostStep, hh, hst]

/-- `bbusy` on a STATUS word branches iff BUSY was 1 (10_state.md R25). -/
theorem busyBit_statusWord (s : State) : busyBit (statusWord s) = s.busy := by
  have hbit := (statusWordLayout s).1
  rw [busyBit, hbit]
  cases s.busy <;> rfl

/-- The Host of `run M -> n; halt` at statement `pc`, with the values it has read so far. -/
def runHost (i : Instr) (n pc : Nat) (names : List (Nat × Word)) (halted : Bool) : HostAgent where
  prog := assemble [.run i n, .stmt .halt]
  pc := pc
  names := names
  halted := halted

/-- The assembled program: the CMD write, the poll loop with its fresh label, `halt`. -/
theorem runHost_prog (i : Instr) (n pc : Nat) (names : List (Nat × Word)) (halted : Bool) :
    (runHost i n pc names halted).prog = [.cmd i, .label 1, .rd .status n, .bbusy n 1, .halt] := rfl

/-- The Host's CMD write issues the command. -/
theorem step_runHost_cmd {s : State} {i : Instr} {n : Nat} (hb : s.busy = false) (ht : s.turns = [])
    (hh : s.host = runHost i n 0 [] false) :
    step s = .next (moved (issue (encode i) s) (runHost i n 1 [] false) []) := by
  rw [step_hostStmt (st := .cmd i) hb ht (by rw [hh]; rfl) (by rw [hh]; rfl)]
  refine (hostAccess_cmd_idle (s := hostNext s) hb (encode i)).trans ?_
  rw [cmdWrite_encode, issue, issue, moved, hostNext, hh, ht]
  rfl

/-- The Engine completes the issued command. -/
theorem step_runHost_engine {s u : State} {i : Instr} (hu : exec i (issue (encode i) s) = .next u) (g : HostAgent) :
    step (moved (issue (encode i) s) g []) = .next (moved u g []) :=
  (step_eq_exec (s := moved (issue (encode i) s) g []) rfl (decode_encode i) rfl).trans (exec_moved hu g [])

section
variable {u : State} (hb : u.busy = false) (i : Instr) (n : Nat)
include hb

theorem step_runHost_label :
    step (moved u (runHost i n 1 [] false) []) = .next (moved u (runHost i n 2 [] false) []) :=
  step_hostStmt (s := moved u _ []) (st := .label 1) hb rfl rfl rfl

theorem step_runHost_rd :
    step (moved u (runHost i n 2 [] false) []) = .next (moved u (runHost i n 3 [(n, statusWord u)] false) []) :=
  (step_hostStmt (s := moved u _ []) (st := .rd .status n) hb rfl rfl rfl).trans
    (hostAccess_regRead (offset_aligned .status) n _)

/-- The STATUS that was read shows BUSY 0, so the poll loop ends. -/
theorem step_runHost_bbusy :
    step (moved u (runHost i n 3 [(n, statusWord u)] false) [])
      = .next (moved u (runHost i n 4 [(n, statusWord u)] false) []) := by
  have hname : nameValue (moved u (runHost i n 3 [(n, statusWord u)] false) []) n = some (statusWord u) :=
    nameValue_bindName n (statusWord u) (moved u (runHost i n 3 [] false) [])
  rw [step_hostStmt (s := moved u _ []) (st := .bbusy n 1) hb rfl rfl rfl]
  simp only [hostStmt, hostBranch, hname, busyBit_statusWord, hb]
  rfl

theorem step_runHost_halt (names : List (Nat × Word)) :
    step (moved u (runHost i n 4 names false) []) = .next (moved u (runHost i n 4 names true) []) :=
  step_hostStmt (s := moved u _ []) (st := .halt) hb rfl rfl rfl

end

theorem run_succ {s t : State} (h : step s = .next t) (k : Nat) : core.run (k + 1) s = core.run k t :=
  run_succ_of_step core h k

/-- Six steps of the default order run the program to its end. -/
theorem run_runHost {s u : State} {i : Instr} {n : Nat} (hb : s.busy = false) (ht : s.turns = [])
    (hh : s.host = runHost i n 0 [] false) (hu : exec i (issue (encode i) s) = .next u) :
    core.run 6 s = .next (moved u (runHost i n 4 [(n, statusWord u)] true) []) := by
  have hub : u.busy = false := exec_busy hu
  calc core.run 6 s
      = core.run 5 (moved (issue (encode i) s) (runHost i n 1 [] false) []) :=
        run_succ (step_runHost_cmd hb ht hh) 5
    _ = core.run 4 (moved u (runHost i n 1 [] false) []) :=
        run_succ (step_runHost_engine hu _) 4
    _ = core.run 3 (moved u (runHost i n 2 [] false) []) :=
        run_succ (step_runHost_label hub i n) 3
    _ = core.run 2 (moved u (runHost i n 3 [(n, statusWord u)] false) []) :=
        run_succ (step_runHost_rd hub i n) 2
    _ = core.run 1 (moved u (runHost i n 4 [(n, statusWord u)] false) []) :=
        run_succ (step_runHost_bbusy hub i n) 1
    _ = .next (moved u (runHost i n 4 [(n, statusWord u)] true) []) :=
        run_succ (step_runHost_halt hub i n _) 0

/-! ### The statements -/

/-- Settles O2: a word is its fields, and fields that decode to a command are that command's. -/
theorem decodeInvertsEncodeOnEveryWord : Obligations.DecodeInvertsEncodeOnEveryWord :=
  fun _ _ => decode_eq_ok_iff

/-- Settles O3: the legal words are the words of the eleven commands. -/
theorem exactlyElevenWordsAreLegal : Obligations.ExactlyElevenWordsAreLegal :=
  ⟨fun _ => isLegal_iff_mem, decode_encode .beOctets8, decode_encode .beOctets16, decode_encode .beOctets32,
    decode_encode .beOctets64, decode_encode .sum, decode_encode .finalize, decode_encode .checksum,
    decode_encode .ipv4Checksum, decode_encode .ipv6Checksum, decode_encode .macFormat, decode_encode .macParse⟩

/-- Settles O4: such a word is not legal (O3), so the CMD write rejects it. -/
theorem illegalWordCompletesAtOnce : Obligations.IllegalWordCompletesAtOnce := by
  intro s v hb hv
  rw [hostAccess_cmd_idle hb, cmdWrite_illegal (mt isLegal_iff_mem.1 hv), rejectWord, raiseError, ← hb]

/-- Settles O5: a command's word is legal, and a write while BUSY is 1 is dropped. -/
theorem legalWordIsIssued : Obligations.LegalWordIsIssued := by
  intro s i
  refine ⟨fun hb => ?_, fun hb => hostAccess_regWrite_busy rfl hb _⟩
  rw [hostAccess_cmd_idle hb, cmdWrite_encode, issue]

/-- Settles O8: the latched word is legal, and with no hazard its command completes. -/
theorem engineStepCompletesCommand : Obligations.EngineStepCompletesCommand := by
  intro s hi hb hz he
  obtain ⟨i, hd⟩ := isLegal_iff_decode.1 (hi.busy_legal hb)
  obtain ⟨t, ht⟩ := exec_completes (s := dropTurn s) i hz
  obtain ⟨-, hbusy, hdone, hwign, hpend, -⟩ := exec_keeps ht
  exact ⟨t, (step_eq_exec hb hd he).trans ht, hbusy, hdone, hwign, hpend, exec_buf (s := dropTurn s) ht⟩

/-- Settles O30: the listed destinations are those of 30_encoding.md R89. -/
theorem accumulatorCommandsFrame : Obligations.AccumulatorCommandsFrame := by
  intro p hp
  have hdst : p.2 = writesOf p.1 := by
    revert p
    decide
  rw [hdst]
  exact fun s t => exec_keeps

/-- Settles O31: the listed destinations are those of 30_encoding.md R89. -/
theorem addressCommandsFrame : Obligations.AddressCommandsFrame := by
  intro p hp
  have hdst : p.2 = writesOf p.1 := by
    revert p
    decide
  rw [hdst]
  exact fun s t => exec_keeps

/-- Settles O59: the six steps end in the completed block with the Host moved, and its one name holds STATUS. -/
theorem runStatementReadsTheCompletedStatus : Obligations.RunStatementReadsTheCompletedStatus := by
  intro s i n hb hz ht hh
  obtain ⟨u, hu⟩ := exec_completes (s := issue (encode i) s) i hz
  have hub : u.busy = false := exec_busy hu
  have huz : u.haz = false := (exec_haz hu).trans hz
  have hbuf : u.buf = s.buf := exec_buf (s := issue (encode i) s) hu
  refine ⟨moved u (runHost i n 4 [(n, statusWord u)] true) [], u, hu, run_runHost hb ht hh hu, rfl, ?_, rfl, rfl,
    ?_, ?_⟩
  · simp [runEnded, hub, runHost]
  · exact nameValue_bindName n (statusWord u) (moved u (runHost i n 4 [] true) [])
  · exact endState_eq_some.2 ⟨rfl, hub, huz, hbuf ▸ rfl⟩

/-- Settles O1: each written-out word is the word of its command. -/
theorem writtenOutWordsDecode : Obligations.WrittenOutWordsDecode :=
  ⟨decode_encode .beOctets64, decode_encode .sum, decode_encode .ipv4Checksum, decode_encode .macFormat,
    decode_encode .macParse⟩

/-- Settles O6: in both cases the Engine's turn is next, and taking it leaves the named schedule. -/
theorem stepRunsDecodedCommand : Obligations.StepRunsDecodedCommand := by
  intro s i hb hd
  refine ⟨fun ts ht => ?_, fun ht => ?_⟩
  · rw [step_eq_exec hb hd (nextTurn_cons ht), dropTurn, ht, List.tail_cons]
  · rw [step_eq_exec hb hd (nextTurn_default_engine hb ht), dropTurn_of_nil ht]

/-- Settles O7: placing accepts the word and puts the Engine's turn first, which the step takes off again. -/
theorem placedCommandRunsNext : Obligations.PlacedCommandRunsNext := by
  intro s i
  have hword : BitVec.ofNat 32 ((encode i).toNat % 2 ^ 32) = encode i := by
    rw [Nat.mod_eq_of_lt (encode i).isLt, BitVec.ofNat_toNat, BitVec.setWidth_eq]
  rw [State.withFetchWord, hword]
  exact step_eq_exec (s := pendingNext (encode i) s) rfl (decode_encode i) rfl

end Machine

end Sys2Proof
end

section
/-! PROOFS. The left-justified octets of BE_OCTETS as one 64-bit number, what the four commands do, and the statements of
41_octets.md. -/

namespace Sys2Proof.Machine

/-! ### The octets as a number (41_octets.md R100, R102) -/

theorem beOctets_length (n v : Nat) : (beOctets n v).length = n / 8 := by
  rw [beOctets, List.length_map, List.length_range]

/-- Byte `k` of `be_octets(N, V)`: N/8 - 1 - k bytes of V stand below it. -/
theorem beOctets_getD_toNat (v : Nat) {n k : Nat} (h : k < n / 8) :
    ((beOctets n v).getD k 0).toNat = v / 2 ^ (8 * (n / 8 - 1 - k)) % 256 := by
  have hmod : v >>> (8 * (n / 8 - 1 - k)) &&& 0xFF = v / 2 ^ (8 * (n / 8 - 1 - k)) % 256 := by
    rw [Nat.shiftRight_eq_div_pow]
    exact Nat.and_two_pow_sub_one_eq_mod _ 8
  rw [List.getD_eq_getElem _ _ ((beOctets_length n v).symm ▸ h)]
  simp only [beOctets, List.getElem_map, List.getElem_range, BitVec.toNat_ofNat, hmod, Nat.reducePow, Nat.mod_mod]

/-- Byte position `k` of OCT_OUT is byte `k` of V moved to the top of 64 bits; the positions past the N/8 bytes are 0. -/
theorem beOctets_getD_leftJustified (v : Nat) {n k : Nat} (hn : n % 8 = 0) (h64 : n ≤ 64) (hk : k < 8) :
    ((beOctets n v).getD k 0).toNat = v * 2 ^ (64 - n) / 2 ^ (8 * (7 - k)) % 256 := by
  by_cases h : k < n / 8
  · have hexp : 8 * (7 - k) = 8 * (n / 8 - 1 - k) + (64 - n) := by omega
    rw [beOctets_getD_toNat v h, hexp, pow_add, Nat.mul_div_mul_right _ _ (Nat.two_pow_pos _)]
  · have hexp : 64 - n = (64 - n - 8 * (7 - k) - 8) + 8 + 8 * (7 - k) := by omega
    rw [List.getD_eq_default _ _ (by rw [beOctets_length]; omega), hexp, pow_add, ← mul_assoc,
      Nat.mul_div_cancel _ (Nat.two_pow_pos _), pow_add, ← mul_assoc]
    exact (Nat.mul_mod_left _ 256).symm

/-- A register that holds the four low base-256 digits of a number, most significant first. -/
theorem packAt_toNat_of_digits {l : List Byte} {j w : Nat}
    (h : ∀ k < 4, (l.getD (4 * j + k) 0).toNat = w / 2 ^ (8 * (3 - k)) % 256) : (packAt l j).toNat = w % 2 ^ 32 := by
  have h0 := h 0 (by decide)
  have h1 := h 1 (by decide)
  have h2 := h 2 (by decide)
  have h3 := h 3 (by decide)
  rw [Nat.add_zero] at h0
  rw [packAt_toNat, h0, h1, h2, h3]
  omega

/-- Two registers that hold the base-256 digits of a 64-bit number, most significant first, hold that number. -/
theorem packAt_pair_toNat {l : List Byte} {w : Nat} (hw : w < 2 ^ 64)
    (h : ∀ k < 8, (l.getD k 0).toNat = w / 2 ^ (8 * (7 - k)) % 256) :
    (packAt l 0).toNat * 2 ^ 32 + (packAt l 1).toNat = w := by
  have hhigh : (packAt l 0).toNat = w / 2 ^ 32 % 2 ^ 32 := packAt_toNat_of_digits fun k hk => by
    have hexp : 8 * (7 - (4 * 0 + k)) = 32 + 8 * (3 - k) := by omega
    rw [h _ (by omega), hexp, pow_add, Nat.div_div_eq_div_mul]
  have hlow : (packAt l 1).toNat = w % 2 ^ 32 := packAt_toNat_of_digits fun k hk => by
    have hexp : 8 * (7 - (4 * 1 + k)) = 8 * (3 - k) := by omega
    rw [h _ (by omega), hexp]
  omega

/-- The packed octets of an N-bit value are the value moved to the top of the 64-bit output. -/
theorem packAt_beOctets_toNat {n v : Nat} (hn : n % 8 = 0) (h64 : n ≤ 64) (hv : v < 2 ^ n) :
    (packAt (beOctets n v) 0).toNat * 2 ^ 32 + (packAt (beOctets n v) 1).toNat = v * 2 ^ (64 - n) := by
  have hfits : v * 2 ^ (64 - n) < 2 ^ 64 :=
    calc v * 2 ^ (64 - n) < 2 ^ n * 2 ^ (64 - n) := Nat.mul_lt_mul_of_pos_right hv (Nat.two_pow_pos _)
      _ = 2 ^ 64 := by rw [← pow_add, Nat.add_sub_cancel' h64]
  exact packAt_pair_toNat hfits fun _ => beOctets_getD_leftJustified v hn h64

/-! ### The four commands (41_octets.md R101) -/

/-- The BE_OCTETS commands, each with its width N. -/
def beOctetsCommands : List (Instr × Nat) := [(.beOctets8, 8), (.beOctets16, 16), (.beOctets32, 32), (.beOctets64, 64)]

/-- Every width is a whole number of bytes and fits the 64-bit output. -/
theorem beOctetsCommands_width : ∀ p ∈ beOctetsCommands, p.2 % 8 = 0 ∧ p.2 ≤ 64 := by
  decide

theorem writesOf_beOctets : ∀ p ∈ beOctetsCommands, writesOf p.1 = [.octOutHi, .octOutLo] := by
  decide

/-- BE_OCTETS.N has no error; its result is its commit. -/
theorem commandResult_beOctets {p : Instr × Nat} (hp : p ∈ beOctetsCommands) (s : State) :
    commandResult p.1 s = .ok (beOctetsCommit p.2 s.x) := by
  simp only [beOctetsCommands, List.mem_cons, List.not_mem_nil, or_false] at hp
  obtain rfl | rfl | rfl | rfl := hp
  · rfl
  · rfl
  · rfl
  · rfl

theorem exec_beOctets {p : Instr × Nat} (hp : p ∈ beOctetsCommands) (s : State) :
    exec p.1 s = complete (.ok (beOctetsCommit p.2 s.x)) s := by
  rw [exec_eq_complete, commandResult_beOctets hp]

theorem exec_beOctets_err {p : Instr × Nat} (hp : p ∈ beOctetsCommands) {s t : State} (h : exec p.1 s = .next t) :
    t.err = none := by
  rw [exec_beOctets hp] at h
  obtain ⟨-, ⟨c, -, rfl⟩ | ⟨e, he, -⟩⟩ := complete_next h
  · rfl
  · cases he

/-! ### The statements -/

/-- Settles O29: the frame of every command, with OCT_OUT as the destination and no error. -/
theorem octetCommandsFrame : Obligations.OctetCommandsFrame := by
  intro i hi s t h
  obtain ⟨p, hp, rfl⟩ : ∃ p ∈ beOctetsCommands, p.1 = i := List.mem_map.1 hi
  obtain ⟨hregs, hbusy, hdone, hrest⟩ := exec_keeps h
  refine ⟨fun r hhi hlo => hregs r ?_, hbusy, hdone, exec_beOctets_err hp h, hrest⟩
  simp [writesOf_beOctets p hp, hhi, hlo]

/-- Settles O32: the command completes with the packed octets of the low N input bits. -/
theorem beOctetsLeftJustifies : Obligations.BeOctetsLeftJustifies := by
  intro s hz p hp
  obtain ⟨hn, h64⟩ := beOctetsCommands_width p hp
  exact ⟨_, (exec_beOctets hp s).trans (complete_ok hz _),
    packAt_beOctets_toNat hn h64 (Nat.mod_lt _ (Nat.two_pow_pos _)), rfl⟩

end Sys2Proof.Machine
end

section
/-! PROOFS. The laws of folding and of word sums, the outcomes of SUM, FINALIZE and CHECKSUM by case, and the statements
of 42_checksum.md. -/

namespace Sys2Proof.Machine

/-! ### Folding (42_checksum.md R115 to R119) -/

/-- One round of the loop of 42_checksum.md R115, in the quotient and the remainder of R117. -/
def foldRound (x : Nat) : Nat := if 0x10000 ≤ x then x / 0x10000 + x % 0x10000 else x

theorem fold16_foldRound (x : Nat) : fold16 (foldRound x) = fold16 x := by
  by_cases h : 0x10000 ≤ x
  · rw [foldRound, if_pos h, fold16_step h, foldStep_eq]
  · rw [foldRound, if_neg h]

/-- After one round of a 32-bit value a second one ends the loop. -/
theorem foldRound_le {x : Nat} (h : x ≤ 0xFFFFFFFF) : foldRound x ≤ 0x1FFFE := by
  unfold foldRound
  split <;> omega

theorem foldRound_foldRound_le {x : Nat} (h : x ≤ 0xFFFFFFFF) : foldRound (foldRound x) ≤ 0xFFFF := by
  have hx := foldRound_le h
  rw [foldRound]
  split <;> omega

theorem fold16_eq_foldRound_foldRound {x : Nat} (h : x ≤ 0xFFFFFFFF) : fold16 x = foldRound (foldRound x) := by
  have hx := foldRound_foldRound_le h
  rw [← fold16_foldRound, ← fold16_foldRound, fold16_of_lt (by omega)]

@[simp] theorem fold16_zero : fold16 0 = 0 := rfl

theorem fold16_eq_zero_iff {x : Nat} : fold16 x = 0 ↔ x = 0 := by
  refine ⟨fun h => ?_, fun h => h ▸ fold16_zero⟩
  by_contra hx
  have := fold16_pos (Nat.pos_of_ne_zero hx)
  omega

/-- The multiples of 0xFFFF fold to 0xFFFF, but for 0 (42_checksum.md R118). -/
theorem fold16_eq_max_iff {x : Nat} : fold16 x = 0xFFFF ↔ 0 < x ∧ x % 0xFFFF = 0 := by
  have hmod := fold16_mod x
  have hlt := fold16_lt x
  have hzero := @fold16_eq_zero_iff x
  omega

theorem finalizeSum_eq_iff {x : Nat} {v : BitVec 16} : finalizeSum x = v ↔ fold16 x = 0xFFFF - v.toNat := by
  have hv := v.isLt
  have hx := fold16_lt x
  rw [← BitVec.toNat_inj, finalizeSum_toNat]
  omega

/-- A sum plus its own checksum folds to 0xFFFF (the proof of 42_checksum.md R126). -/
theorem fold16_add_finalizeSum (x : Nat) : fold16 (x + (finalizeSum x).toNat) = 0xFFFF := by
  have hmod := fold16_mod x
  have hlt := fold16_lt x
  have hzero := @fold16_eq_zero_iff x
  rw [fold16_eq_max_iff, finalizeSum_toNat]
  omega

/-! ### Word sums (42_checksum.md R111, R125, R127) -/

/-- What each index of the sum gives is at most one word. -/
theorem sumBeWords_le (d : List Byte) (k : Nat) :
    sumBeWords d k ≤ d.length / 2 * 0xFFFF + d.length % 2 * 0xFF00 := by
  have hterm : ∀ x ∈ (List.range (wordCount d.length)).map fun i => if i = k then 0 else wordOf d i, x ≤ 0xFFFF := by
    intro x hx
    obtain ⟨i, -, rfl⟩ := List.mem_map.1 hx
    split
    · exact Nat.zero_le _
    · exact wordOf_le d i
  have hwords := List.sum_le_card_nsmul _ _ hterm
  rw [List.length_map, List.length_range, smul_eq_mul] at hwords
  exact Nat.add_le_add hwords (halfOf_le d)

theorem wordOf_replicate_ones {n i : Nat} (h : i < n) : wordOf (List.replicate (2 * n) 0xFF) i = 0xFFFF := by
  rw [wordOf, List.getD_replicate _ (by omega), List.getD_replicate _ (by omega)]
  rfl

/-- Whole words of 0xFFFF, none of them skipped. -/
theorem sumBeWords_replicate_ones (n : Nat) : sumBeWords (List.replicate (2 * n) 0xFF) n = n * 0xFFFF := by
  have hlen : (List.replicate (2 * n) (0xFF : Byte)).length = 2 * n := List.length_replicate
  have hcount : wordCount (2 * n) = n := Nat.mul_div_cancel_left n Nat.two_pos
  have hwords := sum_range_congr (n := n) (g := fun _ => 0xFFFF)
    (f := fun i => if i = n then 0 else wordOf (List.replicate (2 * n) 0xFF) i) fun i hi => by
      rw [if_neg (by omega), wordOf_replicate_ones hi]
  rw [sumBeWords, halfOf_even (by omega), hlen, hcount, hwords]
  simp

/-- The bytes of the skipped word never matter (42_checksum.md R111). -/
theorem sumBeWords_putWordAt_skipped {d : List Byte} {k : Nat} (c : BitVec 16) (hk : k < d.length / 2) :
    sumBeWords (putWordAt d k c) k = sumBeWords d k := by
  have hterm := sum_range_congr (n := wordCount d.length) (f := fun i => if i = k then 0 else wordOf (putWordAt d k c) i)
    (g := fun i => if i = k then 0 else wordOf d i) fun i _ => by
      rw [wordOf_putWordAt c i hk]
      split <;> rfl
  rw [sumBeWords, sumBeWords, putWordAt_length, halfOf_putWordAt c hk, hterm]

/-! ### The commands by case (42_checksum.md R120, R122, R124) -/

/-- Everything the completion of a total can do. -/
theorem complete_map_next {α : Type} {r : Except ErrCode α} {f : α → Commit} {s t : State}
    (h : complete (r.map f) s = .next t) :
    (∃ a, r = .ok a ∧ t = completeOk { s with x := s.x.commit (f a) }) ∨ ∃ e, r = .error e ∧ t = raiseError e s := by
  obtain ⟨-, ⟨c, hr, rfl⟩ | ⟨e, hr, rfl⟩⟩ := complete_next h
  · cases r with
    | error e => cases hr
    | ok a =>
      cases hr
      exact .inl ⟨a, rfl, rfl⟩
  · cases r with
    | error e =>
      cases hr
      exact .inr ⟨e, rfl, rfl⟩
    | ok a => cases hr

theorem complete_map_ok {α : Type} {r : Except ErrCode α} {a : α} {s : State} (hz : s.haz = false) (hr : r = .ok a)
    (f : α → Commit) : complete (r.map f) s = .next (completeOk { s with x := s.x.commit (f a) }) := by
  rw [hr]
  exact complete_ok hz _

theorem complete_map_error {α : Type} {r : Except ErrCode α} {e : ErrCode} {s : State} (hz : s.haz = false)
    (hr : r = .error e) (f : α → Commit) : complete (r.map f) s = .next (raiseError e s) := by
  rw [hr]
  exact complete_error hz _

/-- A command that sums the data buffer, case by case, with the order of its checks (60_exceptions.md R202). -/
theorem complete_dataTotal (seed : Nat) (f : Nat → Commit) {s : State} (hz : s.haz = false) :
    (¬ dataInRange s → complete ((dataTotal seed s).map f) s = .next (raiseError .bufRange s))
      ∧ (dataInRange s → s.x.dataLen.toNat / 2 < s.x.skip.toNat
        → complete ((dataTotal seed s).map f) s = .next (raiseError .skipRange s))
      ∧ (dataInRange s → s.x.skip.toNat ≤ s.x.dataLen.toNat / 2
        → 0xFFFFFFFF < seed + sumBeWords (dataBytes s) s.x.skip.toNat
        → complete ((dataTotal seed s).map f) s = .next (raiseError .overflow s))
      ∧ (dataInRange s → s.x.skip.toNat ≤ s.x.dataLen.toNat / 2
        → seed + sumBeWords (dataBytes s) s.x.skip.toNat ≤ 0xFFFFFFFF
        → complete ((dataTotal seed s).map f) s
          = .next (completeOk { s with x := s.x.commit (f (seed + sumBeWords (dataBytes s) s.x.skip.toNat)) })) := by
  refine ⟨fun hd => ?_, fun hd hk => ?_, fun hd hk ht => ?_, fun hd hk ht => ?_⟩
  · exact complete_map_error hz (dataTotal_bufRange seed hd) f
  · exact complete_map_error hz (dataTotal_skipRange seed hd hk) f
  · exact complete_map_error hz ((dataTotal_fit seed hd hk).trans (fitAcc_overflow ht)) f
  · exact complete_map_ok hz ((dataTotal_fit seed hd hk).trans (fitAcc_ok ht)) f

/-- A total that is kept is the exact one, and it fits the accumulator (42_checksum.md R114). -/
theorem fitAcc_eq_ok_iff {t a : Nat} : fitAcc t = .ok a ↔ t ≤ 0xFFFFFFFF ∧ a = t := by
  by_cases h : t ≤ 0xFFFFFFFF
  · simp [fitAcc_ok h, h, eq_comm]
  · simp [fitAcc_overflow (Nat.lt_of_not_le h), h]

theorem dataTotal_eq_ok {seed a : Nat} {s : State} (h : dataTotal seed s = .ok a) :
    a = seed + sumBeWords (dataBytes s) s.x.skip.toNat ∧ a ≤ 0xFFFFFFFF := by
  obtain hr | hr | ⟨-, -, hr⟩ := dataTotal_cases seed s
  · cases hr.symm.trans h
  · cases hr.symm.trans h
  · obtain ⟨hle, rfl⟩ := fitAcc_eq_ok_iff.1 (hr.symm.trans h)
    exact ⟨rfl, hle⟩

/-- A sum whose bound fits the accumulator raises no OVERFLOW (42_checksum.md R125). -/
theorem dataTotal_ne_overflow {s : State} (h : s.x.dataLen.toNat ≤ 131074) : dataTotal 0 s ≠ .error .overflow := by
  obtain hr | hr | ⟨-, -, hr⟩ := dataTotal_cases 0 s
  · simp [hr]
  · simp [hr]
  · have hsum := sumBeWords_le (dataBytes s) s.x.skip.toNat
    rw [dataBytes, bytes_length] at hsum
    rw [hr, dataBytes, fitAcc_ok (by omega)]
    simp

/-- SUM without an error has added the sum of its data words to ACC, exactly (42_checksum.md R121). -/
theorem exec_sum_acc {s t : State} (h : exec .sum s = .next t) (he : t.err = none) :
    t.x.acc.toNat = s.x.acc.toNat + sumBeWords (dataBytes s) s.x.skip.toNat := by
  obtain ⟨a, hr, rfl⟩ | ⟨e, -, rfl⟩ := complete_map_next h
  · obtain ⟨hsum, hle⟩ := dataTotal_eq_ok hr
    rw [← hsum]
    exact Nat.mod_eq_of_lt (Nat.lt_succ_of_le hle)
  · cases he

/-- CHECKSUM over words whose sum folds to 0xFFFF completes with RESULT 0 (42_checksum.md R126). -/
theorem exec_checksum_result_zero {s : State} (hz : s.haz = false) (hd : dataInRange s)
    (hk : s.x.skip.toNat ≤ s.x.dataLen.toNat / 2) (hfit : sumBeWords (dataBytes s) s.x.skip.toNat ≤ 0xFFFFFFFF)
    (hfold : fold16 (sumBeWords (dataBytes s) s.x.skip.toNat) = 0xFFFF) :
    ∃ t, exec .checksum s = .next t ∧ t.err = none ∧ t.x.result = 0 := by
  obtain ⟨-, -, -, hok⟩ := complete_dataTotal 0 checksumCommit hz
  rw [Nat.zero_add, commit_checksumCommit] at hok
  exact ⟨_, hok hd hk hfit, rfl, finalizeSum_eq_iff.2 hfold⟩

/-! ### Sequences of SUMs (42_checksum.md R121) -/

/-- The Host sets the descriptor and SKIP: base, length, skip index. -/
def putDescriptor (d : Word × Word × Word) (s : State) : State :=
  putReg .skip d.2.2 (putReg .dataLen d.2.1 (putReg .dataBase d.1 s))

/-- Successful SUMs, the first of them from `f 0`, add the sums of their descriptors over the same BUF. -/
theorem sums_acc (l : List (Word × Word × Word)) (f : Nat → State)
    (h : ∀ j (hj : j < l.length), exec .sum (putDescriptor l[j] (f j)) = .next (f (j + 1)) ∧ (f (j + 1)).err = none) :
    (f l.length).x.acc.toNat
      = (f 0).x.acc.toNat + (l.map fun d => sumBeWords (bytes (f 0).buf d.1 d.2.1) d.2.2.toNat).sum := by
  induction l generalizing f with
  | nil => rfl
  | cons d l ih =>
    obtain ⟨hexec, herr⟩ := h 0 (Nat.succ_pos _)
    have hbuf : (f 1).buf = (f 0).buf := exec_buf (s := putDescriptor d (f 0)) hexec
    have hacc : (f 1).x.acc.toNat = (f 0).x.acc.toNat + sumBeWords (bytes (f 0).buf d.1 d.2.1) d.2.2.toNat :=
      exec_sum_acc hexec herr
    have hrest := ih (fun j => f (j + 1)) fun j hj => h (j + 1) (Nat.succ_lt_succ hj)
    simp only [Nat.zero_add, hbuf, hacc] at hrest
    rw [List.length_cons, hrest, List.map_cons, List.sum_cons, Nat.add_assoc]

/-! ### The statements -/

/-- Settles O44: each law is a fact about `fold16` above or in Laws. -/
theorem foldLaws : Obligations.FoldLaws := fun x =>
  ⟨fold16_mod x, fold16_eq_zero_iff, fun h => ⟨fold16_pos h, Nat.le_of_lt_succ (fold16_lt x)⟩, fold16_eq_max_iff,
    fun h => fold16_of_lt (Nat.lt_succ_of_le h)⟩

/-- Settles O45: the round of the statement is `foldRound`. -/
theorem foldTakesAtMostTwoRounds : Obligations.FoldTakesAtMostTwoRounds :=
  ⟨fun _ h => ⟨foldRound_le h, foldRound_foldRound_le h, fold16_eq_foldRound_foldRound h⟩, rfl, rfl⟩

/-- Settles O46: a checksum determines the folded value and is determined by it. -/
theorem finalizeLaws : Obligations.FinalizeLaws := fun _ _ =>
  ⟨finalizeSum_eq_iff.trans fold16_eq_zero_iff, finalizeSum_eq_iff, fun h => by rw [finalizeSum_eq, finalizeSum_eq, h]⟩

/-- Settles O52: both parts compare the buffer with one whose word `k` is replaced. -/
theorem skippedWordCountsAsZero : Obligations.SkippedWordCountsAsZero := by
  intro d k hk
  refine ⟨fun c => sumBeWords_putWordAt_skipped c hk, ?_⟩
  rw [putWordAt_length, sumBeWords_putWordAt 0 hk]
  rfl

/-- Settles O33: FINALIZE has no checks, and its one write stores the low half. -/
theorem finalizeFoldsAndInverts : Obligations.FinalizeFoldsAndInverts := by
  intro s hz
  rw [← finalizeSum_eq, exec_eq_complete]
  refine (complete_ok hz _).trans ?_
  simp only [Regs.commit, List.foldl, Regs.set, extractLsb_setWidth_half, completeOk]

/-- Settles O34: the cases of `complete_dataTotal` from the old ACC. -/
theorem sumFollowsItsRule : Obligations.SumFollowsItsRule := by
  refine ⟨rfl, fun s hz => ?_⟩
  intro d inside total
  have hin : dataInRange s ↔ inside := inRange_iff _ _ _
  have hlen : d.length = s.x.dataLen.toNat := bytes_length _ _ _
  rw [hlen, ← hin]
  exact complete_dataTotal s.x.acc.toNat _ hz

/-- Settles O35: the cases of `complete_dataTotal` from 0, with the total and its checksum as the writes. -/
theorem checksumFollowsItsRule : Obligations.ChecksumFollowsItsRule := by
  refine ⟨rfl, fun s hz => ?_⟩
  intro d inside total
  have hin : dataInRange s ↔ inside := inRange_iff _ _ _
  have hlen : d.length = s.x.dataLen.toNat := bytes_length _ _ _
  have hcases := complete_dataTotal 0 checksumCommit hz
  rw [Nat.zero_add, commit_checksumCommit, finalizeSum_eq] at hcases
  rw [hlen, ← hin]
  exact hcases

/-- Settles O47: at most 65537 words fit 32 bits, and 65537 words of 0xFFFF reach the bound. -/
theorem checksumNeverOverflowsOnShortData : Obligations.ChecksumNeverOverflowsOnShortData := by
  refine ⟨sumBeWords_le, fun s t h hlen => ?_, sumBeWords_replicate_ones 65537⟩
  obtain ⟨a, -, rfl⟩ | ⟨e, hr, rfl⟩ := complete_map_next h
  · simp
  · rintro ⟨⟩
    exact dataTotal_ne_overflow hlen hr

/-- Settles O49: the sums add up from any ACC, so from 0. -/
theorem sequenceOfSumsAddsUp : Obligations.SequenceOfSumsAddsUp := by
  intro l f hzero h
  rw [sums_acc l f h, hzero]
  exact Nat.zero_add _

/-- Settles O50: the stored checksum is added to the sum that skips it, and the total folds to 0xFFFF. -/
theorem checksumRoundTrip : Obligations.ChecksumRoundTrip := by
  intro d k hk d' hfit
  have htotal : sumBeWords d' (d.length / 2) = sumBeWords d k + (finalizeSum (sumBeWords d k)).toNat :=
    sumBeWords_putWordAt _ hk
  have hlen : d'.length = d.length := putWordAt_length d k _
  have hfold : fold16 (sumBeWords d' (d'.length / 2)) = 0xFFFF := by
    rw [hlen, htotal]
    exact fold16_add_finalizeSum _
  refine ⟨hfold, fun s hz hd hdata hskip => ?_⟩
  have hdataLen : s.x.dataLen.toNat = d'.length := hdata ▸ (bytes_length _ _ _).symm
  refine exec_checksum_result_zero hz hd (by omega) ?_ ?_
  · rw [hdata, hskip, hlen]
    exact hfit
  · rw [hdata, hskip]
    exact hfold

end Sys2Proof.Machine
end

section
/-! PROOFS. The laws of the length term and of concatenated buffers, the outcomes of the two pseudo-header commands by
case, and the statements of 43_pseudo_header.md. -/

namespace Sys2Proof.Machine

/-! ### The length term (43_pseudo_header.md R143) -/

/-- The folded value is determined by the residue modulo 0xFFFF and by whether the value is 0 (42_checksum.md R118). -/
theorem fold16_congr {x y : Nat} (hmod : x % 0xFFFF = y % 0xFFFF) (hzero : x = 0 ↔ y = 0) : fold16 x = fold16 y := by
  have hx := fold16_mod x
  have hy := fold16_mod y
  have hxlt := fold16_lt x
  have hylt := fold16_lt y
  have hx0 := @fold16_eq_zero_iff x
  have hy0 := @fold16_eq_zero_iff y
  omega

/-! ### Sums of two buffers (43_pseudo_header.md R150) -/

/-- A skip index past the last word leaves every word in the sum. -/
theorem sum_range_skip_outside {n k : Nat} (f : Nat → Nat) (h : n ≤ k) :
    ((List.range n).map fun i => if i = k then 0 else f i).sum = ((List.range n).map f).sum :=
  sum_range_congr fun i hi => if_neg (by omega)

/-- The sentinel skip sums every word (42_checksum.md R113). -/
theorem sumBeWords_sentinel (d : List Byte) :
    sumBeWords d (d.length / 2) = ((List.range (d.length / 2)).map (wordOf d)).sum + halfOf d := by
  rw [sumBeWords, wordCount, sum_range_skip_outside _ le_rfl]

/-- A skip index below the word count of the first buffer skips that word of the concatenation. -/
theorem sumBeWords_append_low {d : List Byte} (e : List Byte) {k : Nat} (h : d.length % 2 = 0) (hk : k < d.length / 2) :
    sumBeWords (d ++ e) k = sumBeWords d k + sumBeWords e (e.length / 2) := by
  have hextra := sum_range_congr (n := e.length / 2) (f := fun i => if d.length / 2 + i = k then 0 else wordOf e i)
    (g := wordOf e) fun i _ => if_neg (by omega)
  rw [sumBeWords_append e k h, sumBeWords_sentinel, hextra, sumBeWords, halfOf_even h]
  rfl

/-- A skip index past the first buffer's words skips a word of the second one. -/
theorem sumBeWords_append_high {d : List Byte} (e : List Byte) (j : Nat) (h : d.length % 2 = 0) :
    sumBeWords (d ++ e) (d.length / 2 + j) = sumBeWords d (d.length / 2) + sumBeWords e j := by
  rw [sumBeWords_append e _ h, sumBeWords_sentinel, halfOf_even h, sum_range_skip_outside _ (Nat.le_add_right _ _)]
  simp only [Nat.add_left_cancel_iff]
  rfl

/-! ### The contributions (43_pseudo_header.md R140, R141, R142) -/

/-- `P4` in the words of 43_pseudo_header.md R140. -/
theorem pseudoV4_eq_words (x : Regs) :
    pseudoV4 x = x.src0.toNat / 65536 + x.src0.toNat % 65536 + (x.dst0.toNat / 65536 + x.dst0.toNat % 65536)
      + x.proto.toNat + (x.dataLen.toNat + x.extraLen.toNat) := by
  simp only [pseudoV4, protoAndLength, addrWords_eq, Nat.add_assoc]

/-- `P6` as the sum of the sixteen segments of 43_pseudo_header.md R141. -/
theorem pseudoV6_eq_segments (x : Regs) :
    pseudoV6 x = ([x.src0, x.src1, x.src2, x.src3, x.dst0, x.dst1, x.dst2, x.dst3].flatMap
        fun w => [w.toNat / 65536, w.toNat % 65536]).sum + x.proto.toNat + (x.dataLen.toNat + x.extraLen.toNat) := by
  simp only [pseudoV6, protoAndLength, addrWords_eq, List.map_cons, List.map_nil, List.flatMap_cons, List.flatMap_nil,
    List.cons_append, List.nil_append, List.sum_cons, List.sum_nil]
  omega

theorem addrWords_le (v : Word) : addrWords v ≤ 2 * 0xFFFF := by
  have := v.isLt
  rw [addrWords_eq]
  omega

/-- The bound on `P4` (43_pseudo_header.md R146). -/
theorem pseudoV4_le (x : Regs) : pseudoV4 x ≤ 4 * 0xFFFF + 0xFF + (x.dataLen.toNat + x.extraLen.toNat) := by
  have hproto := x.proto.isLt
  have hsrc := addrWords_le x.src0
  have hdst := addrWords_le x.dst0
  unfold pseudoV4 protoAndLength
  omega

/-- The bound on `P6` (43_pseudo_header.md R148). -/
theorem pseudoV6_le (x : Regs) : pseudoV6 x ≤ 16 * 0xFFFF + 0xFF + (x.dataLen.toNat + x.extraLen.toNat) := by
  have hproto := x.proto.isLt
  have haddr := List.sum_le_card_nsmul ([x.src0, x.dst0, x.src1, x.dst1, x.src2, x.dst2, x.src3, x.dst3].map addrWords)
    (2 * 0xFFFF) fun n hn => by
      obtain ⟨v, -, rfl⟩ := List.mem_map.1 hn
      exact addrWords_le v
  rw [List.length_map, smul_eq_mul] at haddr
  simp only [List.length_cons, List.length_nil] at haddr
  unfold pseudoV6 protoAndLength
  omega

/-- The body contribution with the extra buffer's sentinel read off the buffer itself. -/
theorem bodySum_eq (s : State) :
    bodySum s = sumBeWords (dataBytes s) s.x.skip.toNat + sumBeWords (extraBytes s) ((extraBytes s).length / 2) := by
  rw [bodySum, wordCount, extraBytes, bytes_length]

/-- A contribution of at most `c` plus the combined length raises no OVERFLOW, if the largest body sum that the lengths
allow fits the accumulator with it. -/
theorem pseudoTotal_ne_overflow {p c : Nat} {s : State} (hp : p ≤ c + (s.x.dataLen.toNat + s.x.extraLen.toNat))
    (hfit : c + (s.x.dataLen.toNat + s.x.extraLen.toNat)
      + (s.x.dataLen.toNat / 2 * 0xFFFF + s.x.dataLen.toNat % 2 * 0xFF00)
      + (s.x.extraLen.toNat / 2 * 0xFFFF + s.x.extraLen.toNat % 2 * 0xFF00) ≤ 0xFFFFFFFF) :
    pseudoTotal p s ≠ .error .overflow := by
  obtain hr | hr | ⟨-, -, -, hr⟩ := pseudoTotal_cases p s
  · simp [hr]
  · simp [hr]
  · have hdata := sumBeWords_le (dataBytes s) s.x.skip.toNat
    have hextra := sumBeWords_le (extraBytes s) (wordCount s.x.extraLen.toNat)
    rw [dataBytes, bytes_length] at hdata
    rw [extraBytes, bytes_length] at hextra
    have htotal : p + bodySum s ≤ 0xFFFFFFFF := by
      unfold bodySum dataBytes extraBytes
      omega
    simp [hr, fitAcc_ok htotal]

/-- A total that fits the accumulator is stored exactly (42_checksum.md R114). -/
theorem toNat_ofNat_of_fit {n : Nat} (h : n ≤ 0xFFFFFFFF) : (BitVec.ofNat 32 n).toNat = n :=
  Nat.mod_eq_of_lt (Nat.lt_succ_of_le h)

/-! ### The two commands (43_pseudo_header.md R145, R147) -/

/-- The pseudo-header commands, each with its contribution. -/
def pseudoCommands : List (Instr × (Regs → Nat)) := [(.ipv4Checksum, pseudoV4), (.ipv6Checksum, pseudoV6)]

theorem pseudoCommands_reads : ∀ p ∈ pseudoCommands, [.dataBase, .dataLen, .extraBase, .extraLen] ⊆ readsOf p.1 := by
  decide

/-- A pseudo-header command, case by case, with the order of its checks (60_exceptions.md R202). -/
theorem complete_pseudoTotal (p : Nat) (f : Nat → Commit) {s : State} (hz : s.haz = false) :
    (¬ dataInRange s ∨ ¬ extraInRange s → complete ((pseudoTotal p s).map f) s = .next (raiseError .bufRange s))
      ∧ (dataInRange s → extraInRange s → s.x.dataLen.toNat / 2 < s.x.skip.toNat
        → complete ((pseudoTotal p s).map f) s = .next (raiseError .skipRange s))
      ∧ (dataInRange s → extraInRange s → s.x.skip.toNat ≤ s.x.dataLen.toNat / 2 → 0xFFFFFFFF < p + bodySum s
        → complete ((pseudoTotal p s).map f) s = .next (raiseError .overflow s))
      ∧ (dataInRange s → extraInRange s → s.x.skip.toNat ≤ s.x.dataLen.toNat / 2 → p + bodySum s ≤ 0xFFFFFFFF
        → complete ((pseudoTotal p s).map f) s
          = .next (completeOk { s with x := s.x.commit (f (p + bodySum s)) })) := by
  refine ⟨fun hout => ?_, fun hd he hk => ?_, fun hd he hk ht => ?_, fun hd he hk ht => ?_⟩
  · exact complete_map_error hz (pseudoTotal_bufRange p (not_and_or.2 hout)) f
  · exact complete_map_error hz (pseudoTotal_skipRange p hd he hk) f
  · exact complete_map_error hz ((pseudoTotal_fit p hd he hk).trans (fitAcc_overflow ht)) f
  · exact complete_map_ok hz ((pseudoTotal_fit p hd he hk).trans (fitAcc_ok ht)) f

section
variable {p : Instr × (Regs → Nat)} (hp : p ∈ pseudoCommands) {s t : State}
include hp

theorem exec_pseudo (s : State) : exec p.1 s = complete ((pseudoTotal (p.2 s.x) s).map checksumCommit) s := by
  simp only [pseudoCommands, List.mem_cons, List.not_mem_nil, or_false] at hp
  obtain rfl | rfl := hp
  · rfl
  · rfl

/-- Both commands by the rule they share, for the contribution `c`. -/
theorem exec_pseudo_rule (hz : s.haz = false) {c : Nat} (hc : p.2 s.x = c) :
    let d := bytes s.buf s.x.dataBase s.x.dataLen
    let e := bytes s.buf s.x.extraBase s.x.extraLen
    let dataInside := s.x.dataLen.toNat = 0 ∨ s.x.dataBase.toNat + s.x.dataLen.toNat ≤ s.cfg.bufSize
    let extraInside := s.x.extraLen.toNat = 0 ∨ s.x.extraBase.toNat + s.x.extraLen.toNat ≤ s.cfg.bufSize
    let total := c + sumBeWords d s.x.skip.toNat + sumBeWords e (e.length / 2)
    (¬ dataInside ∨ ¬ extraInside → exec p.1 s = .next (raiseError .bufRange s))
      ∧ (dataInside → extraInside → d.length / 2 < s.x.skip.toNat → exec p.1 s = .next (raiseError .skipRange s))
      ∧ (dataInside → extraInside → s.x.skip.toNat ≤ d.length / 2 → 0xFFFFFFFF < total
        → exec p.1 s = .next (raiseError .overflow s))
      ∧ (dataInside → extraInside → s.x.skip.toNat ≤ d.length / 2 → total ≤ 0xFFFFFFFF
        → exec p.1 s = .next (completeOk { s with
            x := { s.x with acc := BitVec.ofNat 32 total, result := BitVec.ofNat 16 (0xFFFF - fold16 total) } })) := by
  intro d e dataInside extraInside total
  have hdata : dataInRange s ↔ dataInside := inRange_iff _ _ _
  have hextra : extraInRange s ↔ extraInside := inRange_iff _ _ _
  have hlen : d.length = s.x.dataLen.toNat := bytes_length _ _ _
  have htotal : p.2 s.x + bodySum s = total := by
    rw [hc, bodySum_eq, ← Nat.add_assoc]
    rfl
  have hcases := complete_pseudoTotal (p.2 s.x) checksumCommit hz
  rw [htotal, commit_checksumCommit, finalizeSum_eq, ← exec_pseudo hp] at hcases
  rw [hlen, ← hdata, ← hextra]
  exact hcases

/-- A pseudo-header command without an error has passed its checks. -/
theorem exec_pseudo_checks (h : exec p.1 s = .next t) (herr : t.err = none) :
    dataInRange s ∧ extraInRange s ∧ s.x.skip.toNat ≤ s.x.dataLen.toNat / 2 := by
  rw [exec_pseudo hp] at h
  obtain ⟨n, hok, -⟩ | ⟨e, -, rfl⟩ := complete_map_next h
  · obtain hr | hr | ⟨hd, he, hk, -⟩ := pseudoTotal_cases (p.2 s.x) s
    · cases hr.symm.trans hok
    · cases hr.symm.trans hok
    · exact ⟨hd, he, hk⟩
  · cases herr

/-- Past its checks a pseudo-header command either raises OVERFLOW or stores its total and the total's checksum. -/
theorem exec_pseudo_stores (h : exec p.1 s = .next t) (hd : dataInRange s) (he : extraInRange s)
    (hk : s.x.skip.toNat ≤ s.x.dataLen.toNat / 2) (hov : t.err ≠ some .overflow) :
    p.2 s.x + bodySum s ≤ 0xFFFFFFFF ∧ t.err = none ∧ t.x.acc = BitVec.ofNat 32 (p.2 s.x + bodySum s)
      ∧ t.x.result = finalizeSum (p.2 s.x + bodySum s) := by
  obtain ⟨hz, -⟩ := exec_next h
  obtain ⟨-, -, hover, hok⟩ := complete_pseudoTotal (p.2 s.x) checksumCommit hz
  rw [exec_pseudo hp] at h
  by_cases hfit : p.2 s.x + bodySum s ≤ 0xFFFFFFFF
  · cases h.symm.trans (hok hd he hk hfit)
    rw [completeOk_x, commit_checksumCommit]
    exact ⟨hfit, rfl, rfl, rfl⟩
  · cases h.symm.trans (hover hd he hk (Nat.lt_of_not_le hfit))
    exact absurd rfl hov

theorem exec_pseudo_ne_overflow (h : exec p.1 s = .next t) (hr : pseudoTotal (p.2 s.x) s ≠ .error .overflow) :
    t.err ≠ some .overflow := by
  rw [exec_pseudo hp] at h
  obtain ⟨n, -, rfl⟩ | ⟨e, he, rfl⟩ := complete_map_next h
  · simp
  · rintro ⟨⟩
    exact hr he

/-- The contribution depends on the operand registers but SKIP. -/
theorem pseudo_congr {s' : State} (h : ∀ r ∈ readsOf p.1, r ≠ .skip → s'.x.get r = s.x.get r) : p.2 s'.x = p.2 s.x := by
  have hsame : SameOperands p.1 s' { s' with x := s.x.set .skip s'.x.skip } := by
    refine ⟨rfl, fun r hr => ?_, fun _ _ => rfl⟩
    by_cases hskip : r = .skip
    · subst hskip
      rfl
    · exact (h r hr hskip).trans (Regs.get_set_ne s.x hskip _).symm
  simp only [pseudoCommands, List.mem_cons, List.not_mem_nil, or_false] at hp
  obtain rfl | rfl := hp
  · exact hsame.pseudoV4_eq
  · exact hsame.pseudoV6_eq

end

/-! ### The round trip (43_pseudo_header.md R151) -/

/-- A value stored at the skipped word, with the sentinel as the new SKIP, is added to the body sum. -/
theorem bodySum_putWordAt {s s' : State} {c : BitVec 16} (hk : s.x.skip.toNat < s.x.dataLen.toNat / 2)
    (hskip : s'.x.skip.toNat = s.x.dataLen.toNat / 2) (hdata : dataBytes s' = putWordAt (dataBytes s) s.x.skip.toNat c)
    (hextra : extraBytes s' = extraBytes s) : bodySum s' = bodySum s + c.toNat := by
  have hlen : (dataBytes s).length = s.x.dataLen.toNat := bytes_length _ _ _
  have hsum := sumBeWords_putWordAt (d := dataBytes s) c (hlen.symm ▸ hk)
  rw [hlen] at hsum
  rw [bodySum_eq, bodySum_eq, hdata, hextra, hskip, hsum]
  omega

/-! ### The primitives (43_pseudo_header.md R149) -/

/-- SUM past its checks, from ACC = `m` to a total `n` that fits the accumulator, stores `n` (42_checksum.md R120). -/
theorem exec_sum_stores {s : State} {m n : Nat} (hz : s.haz = false) (hd : dataInRange s)
    (hk : s.x.skip.toNat ≤ s.x.dataLen.toNat / 2) (hacc : s.x.acc = BitVec.ofNat 32 m)
    (hn : m + sumBeWords (dataBytes s) s.x.skip.toNat = n) (hfit : n ≤ 0xFFFFFFFF) :
    exec .sum s = .next (completeOk (putReg .acc (BitVec.ofNat 32 n) s)) := by
  have hm : s.x.acc.toNat = m := by rw [hacc, toNat_ofNat_of_fit (by omega)]
  obtain ⟨-, -, -, hok⟩ := complete_dataTotal s.x.acc.toNat (fun t => [(.acc, BitVec.ofNat 32 t)]) hz
  rw [hm, hn] at hok
  rw [exec_eq_complete, commandResult, hm]
  exact hok hd hk hfit

/-- FINALIZE from ACC = `n` stores the checksum of `n` (42_checksum.md R122). -/
theorem exec_finalize_stores {s : State} {n : Nat} (hz : s.haz = false) (hacc : s.x.acc = BitVec.ofNat 32 n)
    (hfit : n ≤ 0xFFFFFFFF) :
    exec .finalize s = .next (completeOk { s with x := { s.x with result := finalizeSum n } }) := by
  rw [finalizeFoldsAndInverts s hz, hacc, toNat_ofNat_of_fit hfit, finalizeSum_eq]
  rfl

/-! ### The statements -/

/-- Settles O55: the two totals are congruent modulo 0xFFFF, and both are 0 or neither is. -/
theorem lengthTermMayBeHalved : Obligations.LengthTermMayBeHalved := by
  intro s l
  rw [finalizeSum_eq, finalizeSum_eq, fold16_congr (y := s + (l / 2 ^ 16 + l % 2 ^ 16)) (by omega) (by omega)]

/-- Settles O53: a skip index of the concatenation falls in the first buffer, or in the second at the index less the
first one's word count. -/
theorem splitLaw : Obligations.SplitLaw := by
  refine ⟨fun d e h => ⟨fun k hk => (sumBeWords_append_low e h hk).symm, ?_, sumBeWords_append_high e 0 h⟩, rfl, rfl⟩
  have hcount : (d ++ e).length / 2 = d.length / 2 + e.length / 2 := by
    rw [List.length_append]
    omega
  rw [hcount, sumBeWords_append_high e _ h]

/-- Settles O36: the shared rule with `P4`. -/
theorem ipv4ChecksumFollowsItsRule : Obligations.Ipv4ChecksumFollowsItsRule :=
  ⟨rfl, fun s hz => exec_pseudo_rule (p := (.ipv4Checksum, pseudoV4)) (.head _) hz (pseudoV4_eq_words s.x)⟩

/-- Settles O37: the shared rule with `P6`. -/
theorem ipv6ChecksumFollowsItsRule : Obligations.Ipv6ChecksumFollowsItsRule :=
  ⟨rfl, fun s hz =>
    exec_pseudo_rule (p := (.ipv6Checksum, pseudoV6)) (.tail _ (.head _)) hz (pseudoV6_eq_segments s.x)⟩

/-- Settles O48: up to the lengths of the statement the bounds on the contribution and on the body fit 32 bits. -/
theorem pseudoHeaderNeverOverflowsOnShortData : Obligations.PseudoHeaderNeverOverflowsOnShortData := by
  intro s t
  refine ⟨fun h hlen => ?_, fun h hlen => ?_⟩
  · exact exec_pseudo_ne_overflow (p := (.ipv4Checksum, pseudoV4)) (.head _) h
      (pseudoTotal_ne_overflow (pseudoV4_le s.x) (by omega))
  · exact exec_pseudo_ne_overflow (p := (.ipv6Checksum, pseudoV6)) (.tail _ (.head _)) h
      (pseudoTotal_ne_overflow (pseudoV6_le s.x) (by omega))

/-- Settles O51: the repeat's total is the first total plus its own checksum, which folds to 0xFFFF. -/
theorem pseudoHeaderRoundTrip : Obligations.PseudoHeaderRoundTrip := by
  intro i hi s t s' t' h herr hk hcfg hregs hskip hdata hextra h' hov
  obtain ⟨p, hp, rfl⟩ : ∃ p ∈ pseudoCommands, p.1 = i := List.mem_map.1 hi
  have hread := pseudoCommands_reads p hp
  have hbase : s'.x.dataBase = s.x.dataBase := hregs .dataBase (hread (by decide)) (by decide)
  have hlen : s'.x.dataLen = s.x.dataLen := hregs .dataLen (hread (by decide)) (by decide)
  have hebase : s'.x.extraBase = s.x.extraBase := hregs .extraBase (hread (by decide)) (by decide)
  have helen : s'.x.extraLen = s.x.extraLen := hregs .extraLen (hread (by decide)) (by decide)
  obtain ⟨hd, he, -⟩ := exec_pseudo_checks hp h herr
  obtain ⟨-, -, -, hresult⟩ := exec_pseudo_stores hp h hd he hk.le (by simp [herr])
  have hd' : dataInRange s' := by rwa [dataInRange, hcfg, hbase, hlen]
  have he' : extraInRange s' := by rwa [extraInRange, hcfg, hebase, helen]
  have hk' : s'.x.skip.toNat ≤ s'.x.dataLen.toNat / 2 := by rw [hskip, hlen]
  obtain ⟨hfit', herr', hacc', hresult'⟩ := exec_pseudo_stores hp h' hd' he' hk' hov
  have hfold : fold16 (p.2 s'.x + bodySum s') = 0xFFFF := by
    rw [pseudo_congr hp hregs, bodySum_putWordAt hk hskip hdata hextra, hresult, ← Nat.add_assoc]
    exact fold16_add_finalizeSum _
  refine ⟨herr', ?_, ?_⟩
  · rw [hresult']
    exact finalizeSum_eq_iff.2 hfold
  · rw [hacc', toNat_ofNat_of_fit hfit']
    exact hfold

/-- Settles O54: the two SUMs add the two parts of the body to P, every partial sum fits because the total does, and
FINALIZE takes the checksum of that total. -/
theorem pseudoHeaderCommandsDecompose : Obligations.PseudoHeaderCommandsDecompose := by
  intro p hp s t h herr
  obtain ⟨hz, -⟩ := exec_next h
  obtain ⟨hd, he, hk⟩ := exec_pseudo_checks hp h herr
  obtain ⟨hfit, -, hacc, hresult⟩ := exec_pseudo_stores hp h hd he hk (by simp [herr])
  have hlen := s.x.extraLen.isLt
  have hskip : (BitVec.ofNat 32 (s.x.extraLen.toNat / 2)).toNat = s.x.extraLen.toNat / 2 :=
    toNat_ofNat_of_fit (by omega)
  have hbody : p.2 s.x + sumBeWords (dataBytes s) s.x.skip.toNat
      + sumBeWords (extraBytes s) (BitVec.ofNat 32 (s.x.extraLen.toNat / 2)).toNat = p.2 s.x + bodySum s := by
    rw [hskip, bodySum, wordCount, Nat.add_assoc]
  have hdata := exec_sum_stores (s := putReg .acc (BitVec.ofNat 32 (p.2 s.x)) s) hz hd hk rfl rfl
    (show p.2 s.x + sumBeWords (dataBytes s) s.x.skip.toNat ≤ 0xFFFFFFFF by omega)
  exact ⟨_, _, _, hdata, rfl, exec_sum_stores hz he hskip.le rfl hbody hfit, rfl, exec_finalize_stores hz rfl hfit,
    hacc.symm, hresult.symm⟩

end Sys2Proof.Machine
end

section
/-! PROOFS. The cut at colons, the value of a component, the scan as one case split, the positions of the formatted
text, what MAC_FORMAT and MAC_PARSE store, and the statements of 44_hwaddr.md. -/

namespace Sys2Proof.Machine

/-! ### The cut at colons (44_hwaddr.md R168) -/

@[simp] theorem splitColons_colon_cons (t : List Byte) : splitColons (colon :: t) = [] :: splitColons t := if_pos rfl

/-- Any other byte is put in front of the first component. -/
theorem splitColons_cons_of_ne {b : Byte} (h : b ≠ colon) (t : List Byte) :
    splitColons (b :: t) = (splitColons t).modifyHead (b :: ·) := by
  simp only [splitColons, if_neg h]
  cases hs : splitColons t with
  | nil => exact absurd hs (splitColons_ne_nil t)
  | cons c cs => rfl

/-- The cut is the library's cut of a list at an element. -/
theorem splitColons_eq_splitOn (t : List Byte) : splitColons t = t.splitOn colon := by
  induction t with
  | nil => rfl
  | cons b t ih =>
    by_cases h : b = colon
    · subst h
      simp [ih, List.splitOn, List.splitOnP_cons_eq_if_modifyHead]
    · simp [splitColons_cons_of_ne h, h, ih, List.splitOn, List.splitOnP_cons_eq_if_modifyHead]

theorem splitColons_length (t : List Byte) : (splitColons t).length = 1 + t.count colon := by
  induction t with
  | nil => rfl
  | cons b t ih =>
    by_cases h : b = colon
    · subst h
      simp only [splitColons_colon_cons, List.length_cons, List.count_cons_self, ih, Nat.add_assoc]
    · rw [splitColons_cons_of_ne h, List.length_modifyHead, List.count_cons_of_ne h, ih]

theorem colon_notMem_of_mem_splitColons {t c : List Byte} (hc : c ∈ splitColons t) : colon ∉ c := by
  induction t generalizing c with
  | nil => simp_all [splitColons]
  | cons b t ih =>
    by_cases h : b = colon
    · subst h
      obtain rfl | hc := List.mem_cons.1 ((splitColons_colon_cons t) ▸ hc)
      · exact List.not_mem_nil
      · exact ih hc
    · rw [splitColons_cons_of_ne h] at hc
      cases hs : splitColons t with
      | nil => exact absurd hs (splitColons_ne_nil t)
      | cons d ds =>
        rw [hs] at hc ih
        obtain rfl | hc := List.mem_cons.1 hc
        · exact List.not_mem_cons_of_ne_of_not_mem (Ne.symm h) (ih List.mem_cons_self)
        · exact ih (List.mem_cons_of_mem d hc)

/-- A change of bytes that makes and unmakes no colon changes the components alone. -/
theorem splitColons_map {f : Byte → Byte} (hf : ∀ b, f b = colon ↔ b = colon) (t : List Byte) :
    splitColons (t.map f) = (splitColons t).map (List.map f) := by
  induction t with
  | nil => rfl
  | cons b t ih =>
    by_cases h : b = colon
    · subst h
      rw [List.map_cons, (hf colon).2 rfl, splitColons_colon_cons, splitColons_colon_cons, ih]
      rfl
    · rw [List.map_cons, splitColons_cons_of_ne h, splitColons_cons_of_ne (mt (hf b).1 h), ih]
      cases splitColons t with
      | nil => rfl
      | cons c cs => rfl

/-! ### The value of a component (44_hwaddr.md R167, R169) -/

/-- The value of a hex digit by R167, by the upper ends of its ranges. -/
def digitValue (b : Byte) : Nat :=
  if b.toNat ≤ 0x39 then b.toNat - 0x30 else if b.toNat ≤ 0x46 then b.toNat - 0x41 + 10 else b.toNat - 0x61 + 10

theorem eq_digitValue_of_hexval {b : Byte} {x : Nat} (h : hexval b = some x) : x = digitValue b := by
  unfold hexval at h
  unfold digitValue
  split_ifs at h ⊢ <;> simp at h <;> omega

theorem componentValue_singleton (a : Byte) : componentValue [a] = (hexval a).map fun x => BitVec.ofNat 8 x := rfl

theorem componentValue_pair (a b : Byte) :
    componentValue [a, b] = (hexval a).bind fun x => (hexval b).map fun y => BitVec.ofNat 8 (16 * x + y) := by
  rw [componentValue]
  cases hexval a <;> cases hexval b <;> rfl

theorem componentValue_of_long (a b c : Byte) (k : List Byte) : componentValue (a :: b :: c :: k) = none := rfl

/-- A component is valid exactly when it is one or two digits. -/
theorem componentValue_isSome (k : List Byte) : (componentValue k).isSome = true
    ↔ 1 ≤ k.length ∧ k.length ≤ 2 ∧ ∀ b ∈ k, (hexval b).isSome = true := by
  match k with
  | [] => simp [componentValue]
  | [a] => simp [componentValue_singleton]
  | [a, b] =>
    simp only [componentValue_pair, List.forall_mem_cons]
    cases hexval a <;> cases hexval b <;> simp
  | a :: b :: c :: k => simp [componentValue_of_long]

theorem toNat_of_componentValue_singleton {a v : Byte} (h : componentValue [a] = some v) :
    v.toNat = digitValue a := by
  obtain ⟨x, hx, rfl⟩ := Option.map_eq_some_iff.1 h
  have := hexval_lt hx
  rw [← eq_digitValue_of_hexval hx, BitVec.toNat_ofNat, Nat.mod_eq_of_lt (by omega)]

theorem toNat_of_componentValue_pair {a b v : Byte} (h : componentValue [a, b] = some v) :
    v.toNat = 16 * digitValue a + digitValue b := by
  rw [componentValue_pair] at h
  obtain ⟨x, hx, hv⟩ := Option.bind_eq_some_iff.1 h
  obtain ⟨y, hy, rfl⟩ := Option.map_eq_some_iff.1 hv
  have := hexval_lt hx
  have := hexval_lt hy
  rw [← eq_digitValue_of_hexval hx, ← eq_digitValue_of_hexval hy, BitVec.toNat_ofNat, Nat.mod_eq_of_lt (by omega)]

/-- A change of bytes that keeps every digit's value keeps the value of a component. -/
theorem componentValue_map {f : Byte → Byte} (hf : ∀ b, hexval (f b) = hexval b) (k : List Byte) :
    componentValue (k.map f) = componentValue k := by
  match k with
  | [] => rfl
  | [a] => rw [List.map_singleton, componentValue_singleton, componentValue_singleton, hf]
  | [a, b] => rw [List.map_cons, List.map_singleton, componentValue_pair, componentValue_pair, hf, hf]
  | a :: b :: c :: k => rfl

/-! ### The scan of the components (44_hwaddr.md R170, R171) -/

/-- The scan after the components with values `parts`, as one case split: INVALID before TOO_MANY before TOO_FEW. -/
theorem scanComponents_eq {parts : List Byte} (h : parts.length ≤ 6) (c : List (List Byte)) :
    scanComponents parts c =
      if (c.take (6 - parts.length)).all fun k => (componentValue k).isSome then
        if 6 < parts.length + c.length then .error .parseTooMany
        else if parts.length + c.length < 6 then .error .parseTooFew
        else .ok (parts ++ c.filterMap componentValue)
      else .error .parseInvalid := by
  induction c generalizing parts with
  | nil =>
    by_cases h6 : parts.length = 6
    · simp [scanComponents, h6]
    · simp [scanComponents, h6, Nat.lt_of_le_of_ne h h6, Nat.not_lt.2 h]
  | cons k c ih =>
    by_cases h6 : parts.length = 6
    · simp [scanComponents, h6]
    · have hroom : 6 - parts.length = 6 - (parts.length + 1) + 1 := by omega
      cases hk : componentValue k with
      | none => simp [scanComponents, h6, hk, hroom]
      | some v =>
        have hnext := ih (parts := parts ++ [v]) (by simp; omega)
        simp [scanComponents, h6, hk, hnext, hroom, Nat.add_comm 1, Nat.add_assoc]

/-- The scan of a text as one case split. -/
theorem parseMac_eq (t : List Byte) :
    parseMac t =
      if ((splitColons t).take 6).all fun k => (componentValue k).isSome then
        if 6 < (splitColons t).length then .error .parseTooMany
        else if (splitColons t).length < 6 then .error .parseTooFew
        else .ok ((splitColons t).filterMap componentValue)
      else .error .parseInvalid := by
  simpa [parseMac] using scanComponents_eq (parts := []) (by simp) (splitColons t)

theorem forall_mem_take_iff_getD {α : Type} {P : α → Prop} (l : List α) (n : Nat) (d : α) :
    (∀ a ∈ l.take n, P a) ↔ ∀ k < n, k < l.length → P (l.getD k d) := by
  simp only [List.forall_mem_iff_getElem, List.length_take, List.getElem_take]
  constructor
  · intro h k hn hk
    rw [List.getD_eq_getElem _ _ hk]
    exact h k (by omega)
  · intro h k hk
    rw [← List.getD_eq_getElem l d]
    exact h k (by omega) (by omega)

/-- A list of values is the list of all images exactly when each is defined and they are those values. -/
theorem map_eq_map_some_iff {α β : Type} {f : α → Option β} {l : List α} {m : List β} :
    l.map f = m.map some ↔ (∀ a ∈ l, (f a).isSome = true) ∧ l.filterMap f = m := by
  constructor
  · intro h
    have hm : l.filterMap f = m := by
      calc l.filterMap f = (l.map f).filterMap id := by rw [List.filterMap_map, Function.id_comp]
        _ = m := by rw [h, List.filterMap_map, Function.id_comp, List.filterMap_some]
    refine ⟨fun a ha => ?_, hm⟩
    obtain ⟨b, -, hb⟩ := List.mem_map.1 (h ▸ List.mem_map_of_mem ha)
    rw [← hb, Option.isSome_some]
  · rintro ⟨h, rfl⟩
    rw [List.map_filterMap, eq_comm, List.filterMap_eq_map_iff_forall_eq_some]
    intro a ha
    obtain ⟨b, hb⟩ := Option.isSome_iff_exists.1 (h a ha)
    rw [hb, Option.map_some]

theorem parseMac_eq_parseInvalid_iff (t : List Byte) :
    parseMac t = .error .parseInvalid ↔ ¬ ∀ k ∈ (splitColons t).take 6, (componentValue k).isSome = true := by
  rw [parseMac_eq]
  split_ifs <;> simp_all

theorem parseMac_eq_parseTooMany_iff (t : List Byte) : parseMac t = .error .parseTooMany
    ↔ 6 < (splitColons t).length ∧ ∀ k ∈ (splitColons t).take 6, (componentValue k).isSome = true := by
  rw [parseMac_eq]
  split_ifs <;> simp_all

theorem parseMac_eq_parseTooFew_iff (t : List Byte) : parseMac t = .error .parseTooFew
    ↔ (splitColons t).length < 6 ∧ ∀ k ∈ (splitColons t).take 6, (componentValue k).isSome = true := by
  rw [parseMac_eq]
  split_ifs <;> simp_all
  omega

theorem parseMac_eq_ok_iff (t m : List Byte) : parseMac t = .ok m
    ↔ (splitColons t).length = 6 ∧ (splitColons t).map componentValue = m.map some := by
  by_cases hlen : (splitColons t).length = 6
  · rw [parseMac_eq, List.take_of_length_le hlen.le, map_eq_map_some_iff]
    simp only [List.all_eq_true, hlen, lt_irrefl, if_false, true_and]
    split_ifs with hvalid
    · rw [Except.ok.injEq, and_iff_right hvalid]
    · simp [hvalid]
  · rw [parseMac_eq]
    split_ifs <;> simp [hlen]
    omega

/-- The scan raises no other error than R170's three. -/
theorem parseMac_error {t : List Byte} {e : ErrCode} (h : parseMac t = .error e) :
    e = .parseTooMany ∨ e = .parseTooFew ∨ e = .parseInvalid := by
  rw [parseMac_eq] at h
  split_ifs at h <;> simp_all

/-- A text that is not refused has six values. -/
theorem parseMac_length {t m : List Byte} (h : parseMac t = .ok m) : m.length = 6 := by
  obtain ⟨hlen, hmap⟩ := (parseMac_eq_ok_iff t m).1 h
  rw [← List.length_map (f := some), ← hmap, List.length_map, hlen]

/-- A change of the components that keeps each one's value does not change the scan. -/
theorem scanComponents_map {f : List Byte → List Byte} (hf : ∀ k, componentValue (f k) = componentValue k)
    (parts : List Byte) (c : List (List Byte)) : scanComponents parts (c.map f) = scanComponents parts c := by
  induction c generalizing parts with
  | nil => rfl
  | cons k c ih => simp only [List.map_cons, scanComponents, hf, ih]

/-- A change of bytes that keeps the colons and every digit's value does not change the result (44_hwaddr.md R173). -/
theorem parseMac_map {f : Byte → Byte} (hcolon : ∀ b, f b = colon ↔ b = colon) (hvalue : ∀ b, hexval (f b) = hexval b)
    (t : List Byte) : parseMac (t.map f) = parseMac t := by
  rw [parseMac, splitColons_map hcolon, scanComponents_map (componentValue_map hvalue)]
  rfl

/-- A lowercase letter made uppercase; every other byte is kept. -/
def upperHex (b : Byte) : Byte := if 0x61 ≤ b.toNat ∧ b.toNat ≤ 0x66 then b - 0x20 else b

theorem upperHex_eq_colon_iff (b : Byte) : upperHex b = colon ↔ b = colon := by
  revert b
  decide

theorem hexval_upperHex (b : Byte) : hexval (upperHex b) = hexval b := by
  revert b
  decide

/-! ### The formatted text (44_hwaddr.md R164, R165) -/

theorem formatMac_cons_cons (m n : Byte) (ms : List Byte) :
    formatMac (m :: n :: ms) = hexPair m ++ colon :: formatMac (n :: ms) := rfl

/-- Each octet has two digits, and each but the last a colon after them. -/
theorem formatMac_length_succ (m : Byte) (ms : List Byte) : (formatMac (m :: ms)).length + 1 = 3 * (ms.length + 1) := by
  induction ms generalizing m with
  | nil => rfl
  | cons n ms ih => simp [formatMac_cons_cons, hexPair, ih]; omega

/-- The digits of octet `j` stand at `3j` and `3j + 1`. -/
theorem formatMac_digits {ms : List Byte} {j : Nat} (h : j < ms.length) :
    (formatMac ms).getD (3 * j) 0 = hexl ((ms.getD j 0).extractLsb 7 4)
      ∧ (formatMac ms).getD (3 * j + 1) 0 = hexl ((ms.getD j 0).extractLsb 3 0) := by
  induction ms using formatMac.induct generalizing j with
  | case1 => cases h
  | case2 m =>
    obtain rfl := Nat.lt_one_iff.1 h
    exact ⟨rfl, rfl⟩
  | case3 m n ms ih =>
    cases j with
    | zero => exact ⟨rfl, rfl⟩
    | succ j => exact ih (Nat.lt_of_succ_lt_succ h)

/-- The colon after octet `j` stands at `3j + 2`. -/
theorem formatMac_colon {ms : List Byte} {j : Nat} (h : j + 1 < ms.length) :
    (formatMac ms).getD (3 * j + 2) 0 = colon := by
  induction ms using formatMac.induct generalizing j with
  | case1 => cases h
  | case2 m => simp at h
  | case3 m n ms ih =>
    cases j with
    | zero => rfl
    | succ j => exact ih (Nat.lt_of_succ_lt_succ h)

/-- The components of a formatted address are its octets' digits. -/
theorem splitColons_formatMac {m : List Byte} (h : m ≠ []) : splitColons (formatMac m) = m.map hexPair := by
  induction m using formatMac.induct with
  | case1 => exact absurd rfl h
  | case2 m => exact splitColons_hexPair m
  | case3 m n ms ih =>
    rw [formatMac_cons_cons, splitColons_hexPair_colon, ih (List.cons_ne_nil n ms)]
    rfl

/-- Parsing a formatted address gives the address (44_hwaddr.md R173). -/
theorem parseMac_formatMac {m : List Byte} (h : m.length = 6) : parseMac (formatMac m) = .ok m := by
  have hne : m ≠ [] := List.ne_nil_of_length_pos (by omega)
  rw [parseMac_eq_ok_iff, splitColons_formatMac hne, List.length_map, List.map_map]
  exact ⟨h, List.map_congr_left fun b _ => componentValue_hexPair b⟩

theorem formatMac_injective {m m' : List Byte} (h : m.length = 6) (h' : m'.length = 6)
    (heq : formatMac m = formatMac m') : m = m' :=
  Except.ok.inj ((parseMac_formatMac h).symm.trans (heq ▸ parseMac_formatMac h'))

/-- Seventeen bytes for an address. -/
theorem formatMac_length {m : List Byte} (h : m.length = 6) : (formatMac m).length = 17 := by
  obtain ⟨b, ms, rfl⟩ := List.exists_cons_of_length_eq_add_one h
  have hlen := formatMac_length_succ b ms
  rw [List.length_cons] at h
  omega

/-- A lowercase digit, R163's two ranges. -/
def IsLowerDigit (b : Byte) : Prop :=
  (0x30 ≤ b.toNat ∧ b.toNat ≤ 0x39) ∨ (0x61 ≤ b.toNat ∧ b.toNat ≤ 0x66)

theorem isLowerDigit_hexl (v : BitVec 4) : IsLowerDigit (hexl v) := by
  have := v.isLt
  rw [IsLowerDigit, hexl_toNat]
  split <;> omega

/-- Every lowercase digit is the output digit of its value. -/
theorem hexl_digitValue {b : Byte} (h : IsLowerDigit b) : hexl (BitVec.ofNat 4 (digitValue b)) = b := by
  apply BitVec.eq_of_toNat_eq
  rw [hexl_toNat, BitVec.toNat_ofNat, digitValue]
  unfold IsLowerDigit at h
  split_ifs <;> omega

theorem hexPair_append (u v : BitVec 4) : hexPair (u ++ v) = [hexl u, hexl v] := by
  revert u v
  decide

/-- Two lowercase digits are the digits of an octet. -/
theorem exists_hexPair_eq {a b : Byte} (ha : IsLowerDigit a) (hb : IsLowerDigit b) : ∃ m, hexPair m = [a, b] :=
  ⟨BitVec.ofNat 4 (digitValue a) ++ BitVec.ofNat 4 (digitValue b),
    by rw [hexPair_append, hexl_digitValue ha, hexl_digitValue hb]⟩

/-- A text of two-digit lowercase components is the format of an address (44_hwaddr.md R173). -/
theorem exists_formatMac_eq (n : Nat) {text : List Byte} (hlen : text.length = 3 * n + 2)
    (hpos : ∀ k < 3 * n + 2, if k % 3 = 2 then text.getD k 0 = colon else IsLowerDigit (text.getD k 0)) :
    ∃ m : List Byte, m.length = n + 1 ∧ formatMac m = text := by
  induction n generalizing text with
  | zero =>
    obtain ⟨a, b, rfl⟩ := List.length_eq_two.1 hlen
    obtain ⟨m, hm⟩ := exists_hexPair_eq (a := a) (b := b) (hpos 0 (by decide)) (hpos 1 (by decide))
    exact ⟨[m], rfl, hm⟩
  | succ n ih =>
    match text, hlen with
    | a :: b :: c :: rest, hlen =>
      obtain ⟨m, hm⟩ := exists_hexPair_eq (a := a) (b := b) (hpos 0 (by omega)) (hpos 1 (by omega))
      have hc : c = colon := hpos 2 (by omega)
      obtain ⟨ms, hms, hrest⟩ := ih (text := rest) (by simp at hlen; omega) fun k hk => by
        simpa using hpos (k + 3) (by omega)
      obtain ⟨m', ms, rfl⟩ := List.exists_cons_of_length_eq_add_one hms
      exact ⟨m :: m' :: ms, congrArg (· + 1) hms, by rw [formatMac_cons_cons, hm, hrest, hc]; rfl⟩

/-! ### MAC_FORMAT (44_hwaddr.md R166) -/

theorem exec_macFormat {s : State} (hz : s.haz = false) :
    exec .macFormat s = .next (completeOk { s with x := s.x.commit (macFormatCommit s.x) }) :=
  (exec_eq_complete _ s).trans (complete_ok hz _)

/-- The commit writes the five registers of the text and no other. -/
theorem commit_macFormatCommit (x : Regs) : ∃ v0 v1 v2 v3 v4 : Word,
    x.commit (macFormatCommit x) = { x with fmt0 := v0, fmt1 := v1, fmt2 := v2, fmt3 := v3, fmt4 := v4 } := by
  simp only [macFormatCommit, Regs.commit, List.foldl, Regs.set]
  exact ⟨_, _, _, _, _, rfl⟩

/-- After the commit the five registers hold the text and three zero bytes. -/
theorem fmtBytes_commit_macFormatCommit (x : Regs) :
    fmtBytes (x.commit (macFormatCommit x)) = formatMac (macOctets x) ++ [0, 0, 0] := by
  simp only [fmtBytes, macFormatCommit, Regs.commit, List.foldl, Regs.set, octetsOf_packAt, macOctets_eq]
  rfl

theorem fmtBytes_of_exec_macFormat {s t : State} (h : exec .macFormat s = .next t) :
    fmtBytes t.x = formatMac (macOctets s.x) ++ [0, 0, 0] := by
  obtain ⟨hz, -⟩ := exec_next h
  cases h.symm.trans (exec_macFormat hz)
  exact fmtBytes_commit_macFormatCommit s.x

/-- MAC_FORMAT changes FMT0-FMT4, ERR, BUSY and DONE only. -/
theorem exec_macFormat_frame {s t : State} (h : exec .macFormat s = .next t) : t = { s with
    x := { s.x with fmt0 := t.x.fmt0, fmt1 := t.x.fmt1, fmt2 := t.x.fmt2, fmt3 := t.x.fmt3, fmt4 := t.x.fmt4 }
    err := none, busy := false, done := true } := by
  obtain ⟨hz, -⟩ := exec_next h
  cases h.symm.trans (exec_macFormat hz)
  obtain ⟨v0, v1, v2, v3, v4, hcommit⟩ := commit_macFormatCommit s.x
  rw [hcommit]
  rfl

theorem macOctets_length (x : Regs) : (macOctets x).length = 6 := by
  rw [macOctets_eq]
  rfl

section
variable {s t : State} (h : exec .macFormat s = .next t) {k : Nat}
include h

/-- Byte positions 0 to 16 hold the text. -/
theorem fmtBytes_getD_of_lt (hk : k < 17) : (fmtBytes t.x).getD k 0 = (formatMac (macOctets s.x)).getD k 0 := by
  rw [fmtBytes_of_exec_macFormat h, List.getD_append]
  rwa [formatMac_length (macOctets_length s.x)]

/-- Byte positions from 17 on are 0x00. -/
theorem fmtBytes_getD_of_le (hk : 17 ≤ k) : (fmtBytes t.x).getD k 0 = 0 := by
  rw [fmtBytes_of_exec_macFormat h, List.getD_append_right, List.getD_eq_getElem?_getD]
  · exact List.getElem?_getD_replicate_default_eq 0 3 _
  · rwa [formatMac_length (macOctets_length s.x)]

end

theorem highDigit_toNat (b : Byte) : (b.extractLsb 7 4).toNat = b.toNat / 16 := by
  have := b.isLt
  simp [Nat.shiftRight_eq_div_pow]
  omega

theorem lowDigit_toNat (b : Byte) : (b.extractLsb 3 0).toNat = b.toNat % 16 := by
  simp

/-- The six octets as numbers (10_state.md R33). -/
theorem macOctets_toNat (x : Regs) :
    (macOctets x).map BitVec.toNat = [x.macHi.toNat / 2 ^ 24, x.macHi.toNat / 2 ^ 16 % 256, x.macHi.toNat / 2 ^ 8 % 256,
      x.macHi.toNat % 256, x.macLo.toNat / 256, x.macLo.toNat % 256] := by
  have := x.macHi.isLt
  have := x.macLo.isLt
  simp [macOctets_eq, Nat.shiftRight_eq_div_pow]
  omega

/-! ### MAC_PARSE (44_hwaddr.md R172) -/

theorem commit_macParseCommit (x : Regs) (m0 m1 m2 m3 m4 m5 : Byte) :
    x.commit (macParseCommit [m0, m1, m2, m3, m4, m5])
      = { x with macHi := m0 ++ m1 ++ m2 ++ m3, macLo := m4 ++ m5 } := by
  simp only [macParseCommit, Regs.commit, List.foldl, Regs.set, packAt, append_highHalf]
  rfl

/-- The octets of registers that hold six packed octets. -/
theorem macOctets_of_packed {x : Regs} {m0 m1 m2 m3 m4 m5 : Byte} (hhi : x.macHi = m0 ++ m1 ++ m2 ++ m3)
    (hlo : x.macLo = m4 ++ m5) : macOctets x = [m0, m1, m2, m3, m4, m5] := by
  have hget : x.get .macLo = m4 ++ m5 ++ (0 : Byte) ++ (0 : Byte) := by
    apply BitVec.eq_of_toNat_eq
    rw [Regs.get, hlo]
    simp only [BitVec.toNat_append]
    simp [← Nat.shiftLeft_add]
  rw [macOctets, hhi, hget, octetsOf_append, octetsOf_append]
  rfl

/-- The range is checked before the text is scanned (60_exceptions.md R202). -/
theorem exec_macParse_bufRange {s : State} (hz : s.haz = false) (h : ¬ textInRange s) :
    exec .macParse s = .next (raiseError .bufRange s) := by
  rw [exec_eq_complete, commandResult, if_pos h]
  exact complete_error hz _

/-- On an error of the scan nothing is committed. -/
theorem exec_macParse_error {s : State} {e : ErrCode} (hz : s.haz = false) (h : textInRange s)
    (he : parseMac (textBytes s) = .error e) : exec .macParse s = .next (raiseError e s) := by
  rw [exec_eq_complete, commandResult, if_neg (not_not.2 h)]
  exact complete_map_error hz he _

theorem exec_macParse_ok {s : State} {m : List Byte} (hz : s.haz = false) (h : textInRange s)
    (hm : parseMac (textBytes s) = .ok m) :
    exec .macParse s = .next (completeOk { s with x := s.x.commit (macParseCommit m) }) := by
  rw [exec_eq_complete, commandResult, if_neg (not_not.2 h)]
  exact complete_map_ok hz hm _

theorem exists_six_of_length {m : List Byte} (h : m.length = 6) :
    ∃ m0 m1 m2 m3 m4 m5 : Byte, m = [m0, m1, m2, m3, m4, m5] := by
  match m, h with
  | [m0, m1, m2, m3, m4, m5], _ => exact ⟨m0, m1, m2, m3, m4, m5, rfl⟩

theorem macOctets_commit_macParseCommit (x : Regs) {m : List Byte} (h : m.length = 6) :
    macOctets (x.commit (macParseCommit m)) = m := by
  obtain ⟨m0, m1, m2, m3, m4, m5, rfl⟩ := exists_six_of_length h
  rw [commit_macParseCommit]
  exact macOctets_of_packed rfl rfl

/-! ### Construction by register writes (44_hwaddr.md R161) -/

theorem extractLsb_append_high (a b : BitVec 16) : (a ++ b).extractLsb 31 16 = a := by
  apply BitVec.eq_of_toNat_eq
  have := a.isLt
  rw [BitVec.extractLsb_toNat, BitVec.toNat_append, ← Nat.shiftLeft_add_eq_or_of_lt b.isLt]
  simp [Nat.shiftLeft_eq, Nat.shiftRight_eq_div_pow]
  omega

theorem regWrite_macHi {s : State} (h : s.busy = false) (v : Word) :
    regWrite 0x48 v s = { s with x := { s.x with macHi := v } } := by
  rw [regWrite_of_idle h]
  exact regWriteIdle_rw (r := .macHi) rfl rfl v s

theorem regWrite_macLo {s : State} (h : s.busy = false) (v low : BitVec 16) :
    regWrite 0x4C (v ++ low) s = { s with x := { s.x with macLo := v } } := by
  rw [regWrite_of_idle h, regWriteIdle_rw (r := .macLo) rfl rfl, putReg, Regs.set, extractLsb_append_high]

/-! ### The statements -/

/-- Settles O41: the count and the missing colons by induction on the text, the join from the library's cut. -/
theorem splitCutsAtEveryColon : Obligations.SplitCutsAtEveryColon := fun t =>
  ⟨splitColons_length t, fun _ => colon_notMem_of_mem_splitColons,
    splitColons_eq_splitOn t ▸ List.intercalate_splitOn colon⟩

/-- Settles O42: validity and value by the number of bytes of a component. -/
theorem componentIsOneOrTwoHexDigits : Obligations.ComponentIsOneOrTwoHexDigits := by
  refine ⟨fun k => ?_, fun a v h => toNat_of_componentValue_singleton h, fun a b v h => toNat_of_componentValue_pair h⟩
  rw [componentValue_isSome]
  simp only [hexval_isSome]

/-- Settles O40: each clause is one case of the scan, its first six components named by index. -/
theorem parseReportsTheFirstFailure : Obligations.ParseReportsTheFirstFailure := by
  intro t c
  refine ⟨?_, ?_, ?_, fun m => parseMac_eq_ok_iff t m⟩
  · rw [parseMac_eq_parseInvalid_iff, forall_mem_take_iff_getD _ _ []]
    simp [c]
  · rw [parseMac_eq_parseTooMany_iff, forall_mem_take_iff_getD _ _ []]
    exact and_congr_right fun hmany => ⟨fun h k hk => h k hk (hk.trans hmany), fun h k hk _ => h k hk⟩
  · rw [parseMac_eq_parseTooFew_iff, forall_mem_take_iff_getD _ _ []]
    exact and_congr_right fun hfew => ⟨fun h k hk => h k (hk.trans hfew) hk, fun h k _ hk => h k hk⟩

/-- Settles O43: each write stores its register alone. -/
theorem addressConstructionByTwoWrites : Obligations.AddressConstructionByTwoWrites := by
  intro s m0 m1 m2 m3 m4 m5 low hb hi lo
  have hhilo : lo (hi s) = { s with x := { s.x with macHi := m0 ++ m1 ++ m2 ++ m3, macLo := m4 ++ m5 } } := by
    simp only [hi, lo]
    rw [regWrite_macHi hb, regWrite_macLo]
    exact hb
  have hlohi : hi (lo s) = { s with x := { s.x with macHi := m0 ++ m1 ++ m2 ++ m3, macLo := m4 ++ m5 } } := by
    simp only [hi, lo]
    rw [regWrite_macLo hb, regWrite_macHi]
    exact hb
  exact ⟨hhilo ▸ macOctets_of_packed rfl rfl, hlohi.trans hhilo.symm, hhilo⟩

/-- Settles O38: the digits, colons and zero bytes by position in FMT0-FMT4. -/
theorem macFormatWritesTheText : Obligations.MacFormatWritesTheText := by
  refine ⟨rfl, fun s hz => ?_⟩
  intro m digit
  have hm (j : Nat) : ((macOctets s.x).getD j 0).toNat = m.getD j 0 := by
    rw [show m = (macOctets s.x).map BitVec.toNat from (macOctets_toNat s.x).symm]
    exact (List.getD_map _ 0 BitVec.toNat).symm
  have hlen := macOctets_length s.x
  have hexec := exec_macFormat hz
  refine ⟨_, hexec, fun j hj => ?_, fun j hj => ?_, fun k hk => fmtBytes_getD_of_le hexec hk,
    exec_macFormat_frame hexec⟩
  · obtain ⟨hhigh, hlow⟩ := formatMac_digits (hlen.symm ▸ hj)
    rw [fmtBytes_getD_of_lt hexec (by omega), fmtBytes_getD_of_lt hexec (by omega), hhigh, hlow, hexl_toNat, hexl_toNat,
      highDigit_toNat, lowDigit_toNat, hm]
    exact ⟨rfl, rfl⟩
  · rw [fmtBytes_getD_of_lt hexec (by omega)]
    exact formatMac_colon (by omega)

/-- Settles O39: the range check, then the scan. -/
theorem macParseFollowsItsRule : Obligations.MacParseFollowsItsRule := by
  refine ⟨rfl, fun s hz => ?_⟩
  intro inside text
  have hin : textInRange s ↔ inside := inRange_iff _ _ _
  rw [← hin]
  refine ⟨exec_macParse_bufRange hz, fun e h he => ⟨parseMac_error he, exec_macParse_error hz h he⟩, fun m h hm => ?_⟩
  obtain ⟨m0, m1, m2, m3, m4, m5, rfl⟩ := exists_six_of_length (parseMac_length hm)
  refine ⟨m0, m1, m2, m3, m4, m5, rfl, ?_⟩
  rw [exec_macParse_ok hz h hm, commit_macParseCommit]
  rfl

/-- Settles O56: such a text is the format of an address, and parsing undoes formatting. -/
theorem macTextRoundTrip : Obligations.MacTextRoundTrip := by
  refine ⟨fun s text hz hr htext hlen hpos => ?_, parseMac_map upperHex_eq_colon_iff hexval_upperHex,
    fun m h => parseMac_formatMac h⟩
  obtain ⟨m, hm, rfl⟩ := exists_formatMac_eq 5 hlen hpos
  have hparse := exec_macParse_ok hz hr (htext ▸ parseMac_formatMac hm)
  have hformat := exec_macFormat (s := completeOk { s with x := s.x.commit (macParseCommit m) }) hz
  refine ⟨_, _, hparse, rfl, hformat, rfl, ?_⟩
  rw [fmtBytes_of_exec_macFormat hformat, completeOk_x, macOctets_commit_macParseCommit s.x hm]
  exact List.take_left' hlen

/-- Settles O57: the digits of an octet by position, and parsing undoes formatting. -/
theorem formatIsInjective : Obligations.FormatIsInjective := by
  intro m m' h h'
  refine ⟨formatMac_injective h h', formatMac_length h, fun k hk hne => ?_, fun j hj hzero => ?_⟩
  · obtain ⟨j, hj, rfl | rfl⟩ : ∃ j, j < m.length ∧ (k = 3 * j ∨ k = 3 * j + 1) := ⟨k / 3, by omega, by omega⟩
    · exact (formatMac_digits hj).1 ▸ isLowerDigit_hexl _
    · exact (formatMac_digits hj).2 ▸ isLowerDigit_hexl _
  · obtain ⟨hhigh, hlow⟩ := formatMac_digits (h.symm ▸ hj)
    rw [hhigh, hlow, hzero]
    exact ⟨rfl, rfl⟩

end Sys2Proof.Machine
end

section
/-! PROOFS. What a command leaves when it raises an error, and the statement of 60_exceptions.md. -/

namespace Sys2Proof.Machine

/-- A completion without an error leaves ERR 0, so a command that leaves a code has raised it (60_exceptions.md R203). -/
theorem exec_eq_raiseError {i : Instr} {s t : State} {e : ErrCode} (h : exec i s = .next t) (he : t.err = some e) :
    t = raiseError e s := by
  obtain ⟨-, ⟨c, -, rfl⟩ | ⟨e', rfl⟩⟩ := exec_next h
  · cases (completeOk_err _).symm.trans he
  · cases (raiseError_err e' s).symm.trans he
    rfl

/-- Settles O28: of the two completions of a command only the raised error leaves a code, and raising it writes ERR,
BUSY and DONE alone. -/
theorem errorChangesOnlyStatus : Obligations.ErrorChangesOnlyStatus := fun _ _ _ _ h he => exec_eq_raiseError h he

end Sys2Proof.Machine
end

section
/-! PROOFS. The read set of the command in flight, what every run keeps, the commands from the state after power-on, and
the statements of 70_reset_and_hazards.md. -/

namespace Sys2Proof.Machine

/-! ### The read set of the command in flight (20_memory.md R70, R76) -/

theorem inReadSet_iff {i : Instr} {x : Regs} {a : Nat} :
    inReadSet i x a = true ↔ ∃ d ∈ readSet i x, d.1.toNat ≤ a ∧ a < d.1.toNat + d.2.toNat := by
  simp only [inReadSet, List.any_eq_true, inDescriptor, decide_eq_true_eq]

theorem inPendingReadSet_iff {s : State} {a : Nat} :
    inPendingReadSet s a = true ↔ s.busy = true ∧ ∃ i d, decode s.pend = .ok i ∧ d ∈ readSet i s.x
      ∧ d.1.toNat ≤ a ∧ a < d.1.toNat + d.2.toNat := by
  rw [inPendingReadSet, Bool.and_eq_true]
  cases decode s.pend with
  | error e => simp
  | ok i => simp [inReadSet_iff]

/-! ### What every run keeps -/

/-- What every step keeps, every run keeps. -/
theorem run_keeps {M : Host.Core} {P : M.State → Prop} (hstep : ∀ s t, M.step s = .next t → P s → P t) (k : Nat)
    {s t : M.State} (hs : P s) (h : M.run k s = .next t) : P t := by
  induction k generalizing s with
  | zero =>
    cases h
    exact hs
  | succ k ih =>
    cases hst : M.step s with
    | next u => exact ih (hstep s u hst hs) ((run_succ_of_step M hst k).symm.trans h)
    | fault r => simp [Host.Core.run, hst] at h
    | refused r => simp [Host.Core.run, hst] at h

/-- HAZ, once 1, is 1 after every run (10_state.md R20). -/
theorem run_haz {k : Nat} {s t : State} (hz : s.haz = true) (h : core.run k s = .next t) : t.haz = true :=
  run_keeps (M := core) (P := fun u : State => u.haz = true)
    (fun u v huv => (hazardMarkIsNeverCleared u v huv).1) k hz h

/-! ### The reset turn (70_reset_and_hazards.md R230) -/

theorem step_reset {s : State} {ts : List Turn} (h : s.turns = .reset :: ts) :
    step s = .next (resetBlock (dropTurn s)) :=
  step_of_nextTurn (nextTurn_cons h)

/-! ### Each command from the state after power-on (70_reset_and_hazards.md R233) -/

theorem sumBeWords_nil (k : Nat) : sumBeWords [] k = 0 := rfl

/-- A checksum command whose total is 0 stores ACC 0 and RESULT 0xFFFF, the complement of 0. -/
theorem complete_checksumCommit_zero {r : Except ErrCode Nat} {s : State} (hz : s.haz = false) (hr : r = .ok 0) :
    ∃ t, complete (r.map checksumCommit) s = .next t ∧ t.err = none ∧ t.x.acc = 0 ∧ t.x.result = 0xFFFF := by
  refine ⟨_, complete_map_ok hz hr checksumCommit, rfl, ?_⟩
  rw [completeOk_x, commit_checksumCommit]
  exact ⟨rfl, finalizeSum_eq_iff.2 fold16_zero⟩

/-- With every address register, PROTO and both lengths 0 the pseudo-header contributes 0. -/
theorem pseudoCommands_zero : ∀ p ∈ pseudoCommands, p.2 Regs.zero = 0 := by
  decide

/-- The address is six zero octets. -/
theorem formatMac_macOctets_zero : formatMac (macOctets Regs.zero)
    = [0x30, 0x30, 0x3A, 0x30, 0x30, 0x3A, 0x30, 0x30, 0x3A, 0x30, 0x30, 0x3A, 0x30, 0x30, 0x3A, 0x30, 0x30] := by
  decide

section
variable (c : Config)

@[simp] theorem powerOn_x : (State.powerOn c).x = Regs.zero := rfl

/-- The left-justified number in OCT_OUT is 0, so both its registers are. -/
theorem exec_powerOn_beOctets {p : Instr × Nat} (hp : p ∈ beOctetsCommands) :
    ∃ t, exec p.1 (State.powerOn c) = .next t ∧ t.err = none ∧ t.x.octOutHi = 0 ∧ t.x.octOutLo = 0 := by
  obtain ⟨t, ht, hout, -⟩ := beOctetsLeftJustifies (State.powerOn c) rfl p hp
  have hzero : t.x.octOutHi.toNat * 2 ^ 32 + t.x.octOutLo.toNat = 0 := by
    simpa [Regs.zero] using hout
  exact ⟨t, ht, exec_beOctets_err hp ht, (word_eq_zero_iff _).2 (by omega), (word_eq_zero_iff _).2 (by omega)⟩

theorem dataBytes_powerOn : dataBytes (State.powerOn c) = [] := rfl

theorem extraBytes_powerOn : extraBytes (State.powerOn c) = [] := rfl

/-- The data buffer is empty and SKIP is 0: the checks pass and nothing is summed. -/
theorem dataTotal_powerOn : dataTotal 0 (State.powerOn c) = .ok 0 := by
  rw [dataTotal_fit 0 (.inl rfl) (Nat.zero_le _), dataBytes_powerOn, sumBeWords_nil,
    fitAcc_ok (Nat.zero_le _)]

/-- Both buffers are empty and SKIP is 0: the checks pass and nothing is summed. -/
theorem pseudoTotal_powerOn : pseudoTotal 0 (State.powerOn c) = .ok 0 := by
  rw [pseudoTotal_fit 0 (.inl rfl) (.inl rfl) (Nat.zero_le _), bodySum, dataBytes_powerOn,
    extraBytes_powerOn, sumBeWords_nil, sumBeWords_nil, fitAcc_ok (Nat.zero_le _)]

theorem exec_powerOn_sum : ∃ t, exec .sum (State.powerOn c) = .next t ∧ t.err = none ∧ t.x.acc = 0 :=
  ⟨_, complete_map_ok (s := State.powerOn c) rfl (dataTotal_powerOn c) _, rfl, rfl⟩

theorem exec_powerOn_finalize :
    ∃ t, exec .finalize (State.powerOn c) = .next t ∧ t.err = none ∧ t.x.result = 0xFFFF :=
  ⟨_, finalizeFoldsAndInverts (State.powerOn c) rfl, rfl, rfl⟩

theorem exec_powerOn_checksum :
    ∃ t, exec .checksum (State.powerOn c) = .next t ∧ t.err = none ∧ t.x.acc = 0 ∧ t.x.result = 0xFFFF :=
  complete_checksumCommit_zero (s := State.powerOn c) rfl (dataTotal_powerOn c)

theorem exec_powerOn_pseudo {p : Instr × (Regs → Nat)} (hp : p ∈ pseudoCommands) :
    ∃ t, exec p.1 (State.powerOn c) = .next t ∧ t.err = none ∧ t.x.acc = 0 ∧ t.x.result = 0xFFFF := by
  rw [exec_pseudo hp]
  refine complete_checksumCommit_zero rfl ?_
  rw [powerOn_x, pseudoCommands_zero p hp]
  exact pseudoTotal_powerOn c

theorem exec_powerOn_macFormat : ∃ t, exec .macFormat (State.powerOn c) = .next t ∧ t.err = none
    ∧ fmtBytes t.x = formatMac (macOctets Regs.zero) ++ [0, 0, 0] := by
  have hexec := exec_macFormat (s := State.powerOn c) rfl
  have htext := fmtBytes_of_exec_macFormat hexec
  rw [powerOn_x] at htext
  exact ⟨_, hexec, rfl, htext⟩

/-- The text is empty: its one component is invalid (44_hwaddr.md R168, R169). -/
theorem exec_powerOn_macParse : exec .macParse (State.powerOn c) = .next (raiseError .parseInvalid (State.powerOn c)) :=
  exec_macParse_error rfl (.inl rfl) rfl

end

/-! ### The statements -/

/-- Settles O25: the write changes BUF and HAZ, and sets HAZ iff the address is in the read set of the command in
flight. -/
theorem bufWriteMarksHazard : Obligations.BufWriteMarksHazard := by
  intro s w v hw
  refine ⟨bufWrite w.toNat v s, hostAccess_bufWrite hw v, rfl, ?_⟩
  rw [bufWrite_haz, Bool.or_eq_true, inPendingReadSet_iff]

/-- Settles O27: no step clears HAZ (O11), so no run does, and while it is 1 there is no end state. -/
theorem hazardStopsEveryCompletion : Obligations.HazardStopsEveryCompletion := fun _ hz =>
  ⟨fun i => exec_hazard i hz, fun _ _ h => endState_hazard (run_haz hz h)⟩

/-- Settles O23: the step is the reset itself, and afterwards no bit is stored and no flag is set. -/
theorem resetAbandonsTheCommand : Obligations.ResetAbandonsTheCommand := fun _ _ h =>
  ⟨_, step_reset h, readReg_eq_zero rfl rfl rfl rfl rfl, rfl, rfl, rfl, rfl, fun _ => rfl⟩

/-- Settles O58: every operand register is 0 and every buffer empty, so each command completes as its lemma above says. -/
theorem everyCommandIsDefinedFromReset : Obligations.EveryCommandIsDefinedFromReset := by
  intro c
  refine ⟨fun i hi => ?_, exec_powerOn_sum c, ?_, fun i hi => ?_, ?_, _, exec_powerOn_macParse c, rfl⟩
  · obtain ⟨p, hp, rfl⟩ : ∃ p ∈ beOctetsCommands, p.1 = i := List.mem_map.1 hi
    exact exec_powerOn_beOctets c hp
  · simp only [List.forall_mem_cons, List.not_mem_nil, false_imp_iff, implies_true, and_true]
    obtain ⟨t, ht, herr, -, hresult⟩ := exec_powerOn_checksum c
    exact ⟨exec_powerOn_finalize c, t, ht, herr, hresult⟩
  · obtain ⟨p, hp, rfl⟩ : ∃ p ∈ pseudoCommands, p.1 = i := List.mem_map.1 hi
    exact exec_powerOn_pseudo c hp
  · obtain ⟨t, ht, herr, htext⟩ := exec_powerOn_macFormat c
    rw [formatMac_macOctets_zero] at htext
    exact ⟨t, ht, herr, htext⟩

end Sys2Proof.Machine
end
